-- ==== Sys2Proof/Word.lean ====
section
/-! DEFINITION. The word types of the core (00_scope.md R8, R9): bytes, 16-bit words, 4-bit register indices, 12-bit addresses. Every value is
unsigned, nothing sign-extends, and arithmetic on a value of width N wraps modulo 2^N, which is what `BitVec` addition and subtraction do. -/

namespace Sys2Proof

/-- 8 bits: a general register, a timer, a memory byte, the immediate `kk`. -/
abbrev Byte := BitVec 8

/-- 16 bits: `I`, `pc`, a stack entry, an instruction word, the keypad vector. -/
abbrev Word := BitVec 16

/-- 4 bits: the fields `x`, `y` and `n` of an instruction word. -/
abbrev Nibble := BitVec 4

/-- 12 bits: the field `nnn`. -/
abbrev Addr12 := BitVec 12

end Sys2Proof
end

