-- ==== Sys2Proof/Config.lean ====
section
/-! DEFINITION. What is fixed for the machine: the parameters of 00_scope.md R6, the two open parameters of R7, and the one free value. -/

namespace Sys2Proof

/-- MEM_SIZE (R6): 4096 bytes, addresses 0x000..0xFFF. -/
abbrev Config.memSize : Nat := 4096

/-- ENTRY (R6): the reset pc and the place of the program image. -/
abbrev Config.entry : Nat := 0x200

/-- FONT_BASE's length (R6): 16 glyphs of 5 bytes at 0x000. -/
abbrev Config.fontLen : Nat := 80

/-- MAX_IMAGE (R6): 0x200..0xFFF. -/
abbrev Config.maxImage : Nat := 3584

/-- The open parameter DECODE_FAIL_POLICY (R7, D4): what a step does with a word that fails to decode. -/
inductive DecodeFailPolicy where
  /-- enter HALTED (R247) -/
  | halt
  /-- go on at `pc + 2` (R248) -/
  | skip
  deriving DecidableEq, Repr

/-- The open parameter FONT_TABLE (R7, D30): the 80 bytes put at 0x000 at reset. -/
abbrev FontTable := Vector Byte 80

/-- The two open parameters of R7, taken as arguments: every statement about a state or about `bootState` holds for every value of them. -/
structure Params where
  decodeFailPolicy : DecodeFailPolicy
  fontTable        : FontTable
  deriving DecidableEq, Repr

/-- The default FONT_TABLE of 70_reset_and_hazards.md R274, glyph d at 5*d. PRESUMED (log 5): the spec marks these bytes as general knowledge. -/
def Config.defaultFont : FontTable := #v[
  0xF0, 0x90, 0x90, 0x90, 0xF0,  0x20, 0x60, 0x20, 0x20, 0x70,
  0xF0, 0x10, 0xF0, 0x80, 0xF0,  0xF0, 0x10, 0xF0, 0x10, 0xF0,
  0x90, 0x90, 0xF0, 0x10, 0x10,  0xF0, 0x80, 0xF0, 0x10, 0xF0,
  0xF0, 0x80, 0xF0, 0x90, 0xF0,  0xF0, 0x10, 0x20, 0x40, 0x40,
  0xF0, 0x90, 0xF0, 0x90, 0xF0,  0xF0, 0x90, 0xF0, 0x10, 0xF0,
  0xF0, 0x90, 0xF0, 0x90, 0x90,  0xE0, 0x90, 0xE0, 0x90, 0xE0,
  0xF0, 0x80, 0x80, 0x80, 0xF0,  0xE0, 0x90, 0x90, 0x90, 0xE0,
  0xF0, 0x80, 0xF0, 0x80, 0xF0,  0xF0, 0x80, 0xF0, 0x80, 0x80]

/-- The parameters `State.reset` carries: Halt (DESIGN CHOICE, log 4) and the default font (PRESUMED, log 5). -/
def Config.defaultParams : Params := { decodeFailPolicy := .halt, fontTable := Config.defaultFont }

/-- The random byte of the k-th step for which the host scheduled no event (R220, U4: any value). A free value with no body (log 3). -/
opaque Config.freeRnd : Nat → Byte

end Sys2Proof
end

