-- ==== Sys2Proof/Syntax.lean ====
section
/-! DEFINITION. The instructions: one constructor per row of 30_encoding.md R74 (spec/opcode_table.json), in the table's order, under the spec's
names. Operands are the fields of R71 at their exact widths. The bits a decoder ignores are kept as the last argument of `cls`, `ret`, `seReg`
and `sneReg`, so that a word can be given back (log 11). -/

namespace Sys2Proof

inductive Instr where
  /-- CLS, 0?E0; `z` is the ignored w[11:8] (R75) -/
  | cls    (z : Nibble)
  /-- RET, 0?EE; `z` is the ignored w[11:8] (R75) -/
  | ret    (z : Nibble)
  /-- JP nnn, 1nnn -/
  | jp     (nnn : Addr12)
  /-- CALL nnn, 2nnn -/
  | call   (nnn : Addr12)
  /-- SE Vx, kk, 3xkk -/
  | seImm  (x : Nibble) (kk : Byte)
  /-- SNE Vx, kk, 4xkk -/
  | sneImm (x : Nibble) (kk : Byte)
  /-- SE Vx, Vy, 5xy?; `n` is the ignored w[3:0] (R77) -/
  | seReg  (x y n : Nibble)
  /-- LD Vx, kk, 6xkk -/
  | ldX    (x : Nibble) (kk : Byte)
  /-- ADD Vx, kk, 7xkk -/
  | addImm (x : Nibble) (kk : Byte)
  /-- LD Vx, Vy, 8xy0 -/
  | ldReg  (x y : Nibble)
  /-- OR Vx, Vy, 8xy1 -/
  | orReg  (x y : Nibble)
  /-- AND Vx, Vy, 8xy2 -/
  | andReg (x y : Nibble)
  /-- XOR Vx, Vy, 8xy3 -/
  | xorReg (x y : Nibble)
  /-- ADD Vx, Vy, 8xy4 -/
  | addReg (x y : Nibble)
  /-- SUB Vx, Vy, 8xy5 -/
  | sub    (x y : Nibble)
  /-- SHR Vx, 8xy6; `y` is encoded and not read (R159) -/
  | shr    (x y : Nibble)
  /-- SUBN Vx, Vy, 8xy7 -/
  | subn   (x y : Nibble)
  /-- SHL Vx, 8xyE; `y` is encoded and not read (R161) -/
  | shl    (x y : Nibble)
  /-- SNE Vx, Vy, 9xy?; `n` is the ignored w[3:0] (R77) -/
  | sneReg (x y n : Nibble)
  /-- LD I, nnn, Annn -/
  | ldI    (nnn : Addr12)
  /-- JP V0, nnn, Bnnn -/
  | jpV0   (nnn : Addr12)
  /-- RND Vx, kk, Cxkk -/
  | rnd    (x : Nibble) (kk : Byte)
  /-- DRW Vx, Vy, n, Dxyn -/
  | drw    (x y n : Nibble)
  /-- SKP Vx, Ex9E -/
  | skp    (x : Nibble)
  /-- SKNP Vx, ExA1 -/
  | sknp   (x : Nibble)
  /-- LD Vx, DT, Fx07 -/
  | ldVxDt (x : Nibble)
  /-- LD Vx, K, Fx0A -/
  | ldVxK  (x : Nibble)
  /-- LD DT, Vx, Fx15 -/
  | ldDtVx (x : Nibble)
  /-- LD ST, Vx, Fx18 -/
  | ldStVx (x : Nibble)
  /-- ADD I, Vx, Fx1E -/
  | addI   (x : Nibble)
  /-- LD F, Vx, Fx29 -/
  | ldF    (x : Nibble)
  /-- LD B, Vx, Fx33 -/
  | ldB    (x : Nibble)
  /-- LD [I], Vx, Fx55 -/
  | ldIVx  (x : Nibble)
  /-- LD Vx, [I], Fx65 -/
  | ldVxI  (x : Nibble)
  deriving DecidableEq, Repr

end Sys2Proof
end

