-- ==== Sys2Proof/WellFormed.lean ====
section
/-! DEFINITION. Well-formedness of what is given to the core from outside. An instruction needs no check: its fields have exactly their encoded
widths, so "register index > 15" cannot be written (10_state.md R20) and every `Instr` term is well-formed. The one check is on the program
image of a Reset (70_reset_and_hazards.md R272). -/

namespace Sys2Proof

/-- Every instruction of the syntax is well-formed (R20, R71): the widths are in the types. -/
def Instr.wf : Instr → Bool
  | .cls _ | .ret _ | .jp _ | .call _ | .seImm _ _ | .sneImm _ _ | .seReg _ _ _ | .ldX _ _ | .addImm _ _
  | .ldReg _ _ | .orReg _ _ | .andReg _ _ | .xorReg _ _ | .addReg _ _ | .sub _ _ | .shr _ _ | .subn _ _ | .shl _ _
  | .sneReg _ _ _ | .ldI _ | .jpV0 _ | .rnd _ _ | .drw _ _ _ | .skp _ | .sknp _
  | .ldVxDt _ | .ldVxK _ | .ldDtVx _ | .ldStVx _ | .addI _ | .ldF _ | .ldB _ | .ldIVx _ | .ldVxI _ => true

/-- A program image fits between 0x200 and 0xFFF (R272): its length is 0..3584. -/
def imageFits (image : List Byte) : Bool := decide (image.length ≤ Config.maxImage)

end Sys2Proof
end

