-- ==== Sys2Proof/Decode.lean ====
section
/-! DEFINITION. The decoder of 30_encoding.md (R71, R73..R80), total on every word and on every byte list, and the encoder written from the same
patterns of R74. -/

namespace Sys2Proof

/-! ### Fields (R71) -/

/-- `op = w[15:12]` -/
def opField (w : Word) : Nibble := w.extractLsb' 12 4
/-- `x = w[11:8]` -/
def xField (w : Word) : Nibble := w.extractLsb' 8 4
/-- `y = w[7:4]` -/
def yField (w : Word) : Nibble := w.extractLsb' 4 4
/-- `n = w[3:0]` -/
def nField (w : Word) : Nibble := w.extractLsb' 0 4
/-- `kk = w[7:0]` -/
def kkField (w : Word) : Byte := w.extractLsb' 0 8
/-- `nnn = w[11:0]` -/
def nnnField (w : Word) : Addr12 := w.extractLsb' 0 12

/-! ### Decode (R80) -/

/-- The codomain of `decode`: one instruction, or `DecodeFailure(w)`. -/
inductive Decoded where
  | instr   (i : Instr)
  /-- the word matches no row of R74; not an error of itself (R80) -/
  | failure (w : Word)
  deriving DecidableEq, Repr

/-- Family 0x0 selects on `kk` only, whatever w[11:8] holds (R75). -/
def decodeFamily0 (w : Word) : Decoded :=
  if kkField w = 0xE0#8 then .instr (.cls (xField w))
  else if kkField w = 0xEE#8 then .instr (.ret (xField w))
  else .failure w

/-- Family 0x8 selects on `n` (R76). -/
def decodeFamily8 (w : Word) : Decoded :=
  match nField w with
  | 0x0#4 => .instr (.ldReg (xField w) (yField w))
  | 0x1#4 => .instr (.orReg (xField w) (yField w))
  | 0x2#4 => .instr (.andReg (xField w) (yField w))
  | 0x3#4 => .instr (.xorReg (xField w) (yField w))
  | 0x4#4 => .instr (.addReg (xField w) (yField w))
  | 0x5#4 => .instr (.sub (xField w) (yField w))
  | 0x6#4 => .instr (.shr (xField w) (yField w))
  | 0x7#4 => .instr (.subn (xField w) (yField w))
  | 0xE#4 => .instr (.shl (xField w) (yField w))
  | _     => .failure w

/-- Family 0xE selects on `kk` (R78). -/
def decodeFamilyE (w : Word) : Decoded :=
  if kkField w = 0x9E#8 then .instr (.skp (xField w))
  else if kkField w = 0xA1#8 then .instr (.sknp (xField w))
  else .failure w

/-- Family 0xF selects on `kk` (R79). -/
def decodeFamilyF (w : Word) : Decoded :=
  match kkField w with
  | 0x07#8 => .instr (.ldVxDt (xField w))
  | 0x0A#8 => .instr (.ldVxK (xField w))
  | 0x15#8 => .instr (.ldDtVx (xField w))
  | 0x18#8 => .instr (.ldStVx (xField w))
  | 0x1E#8 => .instr (.addI (xField w))
  | 0x29#8 => .instr (.ldF (xField w))
  | 0x33#8 => .instr (.ldB (xField w))
  | 0x55#8 => .instr (.ldIVx (xField w))
  | 0x65#8 => .instr (.ldVxI (xField w))
  | _      => .failure w

/-- `decode(w)` (R80): primary dispatch on the top nibble (R73). The last case is 0xF. -/
def decode (w : Word) : Decoded :=
  match opField w with
  | 0x0#4 => decodeFamily0 w
  | 0x1#4 => .instr (.jp (nnnField w))
  | 0x2#4 => .instr (.call (nnnField w))
  | 0x3#4 => .instr (.seImm (xField w) (kkField w))
  | 0x4#4 => .instr (.sneImm (xField w) (kkField w))
  | 0x5#4 => .instr (.seReg (xField w) (yField w) (nField w))
  | 0x6#4 => .instr (.ldX (xField w) (kkField w))
  | 0x7#4 => .instr (.addImm (xField w) (kkField w))
  | 0x8#4 => decodeFamily8 w
  | 0x9#4 => .instr (.sneReg (xField w) (yField w) (nField w))
  | 0xA#4 => .instr (.ldI (nnnField w))
  | 0xB#4 => .instr (.jpV0 (nnnField w))
  | 0xC#4 => .instr (.rnd (xField w) (kkField w))
  | 0xD#4 => .instr (.drw (xField w) (yField w) (nField w))
  | 0xE#4 => decodeFamilyE w
  | _     => decodeFamilyF w

/-- The big-endian word of two bytes: the byte at the lower address is bits 15..8 (20_memory.md R55). -/
def wordOfBytes (hi lo : Byte) : Word := hi ++ lo

/-- What a byte list starts with. -/
inductive DecodedBytes where
  | instr   (i : Instr) (rest : List Byte)
  | failure (w : Word) (rest : List Byte)
  /-- fewer than two bytes: no whole instruction word (R70) -/
  | tooShort (bytes : List Byte)
  deriving DecidableEq, Repr

/-- Decode the first instruction word of a byte list (R55, R70). -/
def decodeBytes : List Byte → DecodedBytes
  | hi :: lo :: rest =>
    match decode (wordOfBytes hi lo) with
    | .instr i => .instr i rest
    | .failure w => .failure w rest
  | bytes => .tooShort bytes

/-! ### Encode (R74) -/

/-- The word of four nibbles, the first in bits 15..12. -/
def ofNibbles (a b c d : Nibble) : Word := a ++ b ++ c ++ d
/-- The word of a top nibble, a register field and a low byte: the `?xkk` patterns. -/
def ofXkk (a x : Nibble) (kk : Byte) : Word := a ++ x ++ kk
/-- The word of a top nibble and a 12-bit address: the `?nnn` patterns. -/
def ofNnn (a : Nibble) (nnn : Addr12) : Word := a ++ nnn

/-- The word of an instruction, from the pattern column of R74. -/
def encode : Instr → Word
  | .cls z        => ofXkk 0x0 z 0xE0
  | .ret z        => ofXkk 0x0 z 0xEE
  | .jp nnn       => ofNnn 0x1 nnn
  | .call nnn     => ofNnn 0x2 nnn
  | .seImm x kk   => ofXkk 0x3 x kk
  | .sneImm x kk  => ofXkk 0x4 x kk
  | .seReg x y n  => ofNibbles 0x5 x y n
  | .ldX x kk     => ofXkk 0x6 x kk
  | .addImm x kk  => ofXkk 0x7 x kk
  | .ldReg x y    => ofNibbles 0x8 x y 0x0
  | .orReg x y    => ofNibbles 0x8 x y 0x1
  | .andReg x y   => ofNibbles 0x8 x y 0x2
  | .xorReg x y   => ofNibbles 0x8 x y 0x3
  | .addReg x y   => ofNibbles 0x8 x y 0x4
  | .sub x y      => ofNibbles 0x8 x y 0x5
  | .shr x y      => ofNibbles 0x8 x y 0x6
  | .subn x y     => ofNibbles 0x8 x y 0x7
  | .shl x y      => ofNibbles 0x8 x y 0xE
  | .sneReg x y n => ofNibbles 0x9 x y n
  | .ldI nnn      => ofNnn 0xA nnn
  | .jpV0 nnn     => ofNnn 0xB nnn
  | .rnd x kk     => ofXkk 0xC x kk
  | .drw x y n    => ofNibbles 0xD x y n
  | .skp x        => ofXkk 0xE x 0x9E
  | .sknp x       => ofXkk 0xE x 0xA1
  | .ldVxDt x     => ofXkk 0xF x 0x07
  | .ldVxK x      => ofXkk 0xF x 0x0A
  | .ldDtVx x     => ofXkk 0xF x 0x15
  | .ldStVx x     => ofXkk 0xF x 0x18
  | .addI x       => ofXkk 0xF x 0x1E
  | .ldF x        => ofXkk 0xF x 0x29
  | .ldB x        => ofXkk 0xF x 0x33
  | .ldIVx x      => ofXkk 0xF x 0x55
  | .ldVxI x      => ofXkk 0xF x 0x65

/-- The two bytes of a word in the order memory holds them (R55). -/
def bytesOfWord (w : Word) : List Byte := [w.extractLsb' 8 8, w.extractLsb' 0 8]

/-- The bytes of an instruction as memory holds them (R55). -/
def encodeBytes (i : Instr) : List Byte := bytesOfWord (encode i)

/-! ### The opcode map as data (R74) -/

/-- A row of R74: `(w & mask) == value` selects the instruction. -/
structure OpcodeRow where
  mask  : Word
  value : Word
  deriving DecidableEq, Repr

/-- The row of R74 an instruction belongs to. -/
def Instr.row : Instr → OpcodeRow
  | .cls _        => { mask := 0xF0FF, value := 0x00E0 }
  | .ret _        => { mask := 0xF0FF, value := 0x00EE }
  | .jp _         => { mask := 0xF000, value := 0x1000 }
  | .call _       => { mask := 0xF000, value := 0x2000 }
  | .seImm _ _    => { mask := 0xF000, value := 0x3000 }
  | .sneImm _ _   => { mask := 0xF000, value := 0x4000 }
  | .seReg _ _ _  => { mask := 0xF000, value := 0x5000 }
  | .ldX _ _      => { mask := 0xF000, value := 0x6000 }
  | .addImm _ _   => { mask := 0xF000, value := 0x7000 }
  | .ldReg _ _    => { mask := 0xF00F, value := 0x8000 }
  | .orReg _ _    => { mask := 0xF00F, value := 0x8001 }
  | .andReg _ _   => { mask := 0xF00F, value := 0x8002 }
  | .xorReg _ _   => { mask := 0xF00F, value := 0x8003 }
  | .addReg _ _   => { mask := 0xF00F, value := 0x8004 }
  | .sub _ _      => { mask := 0xF00F, value := 0x8005 }
  | .shr _ _      => { mask := 0xF00F, value := 0x8006 }
  | .subn _ _     => { mask := 0xF00F, value := 0x8007 }
  | .shl _ _      => { mask := 0xF00F, value := 0x800E }
  | .sneReg _ _ _ => { mask := 0xF000, value := 0x9000 }
  | .ldI _        => { mask := 0xF000, value := 0xA000 }
  | .jpV0 _       => { mask := 0xF000, value := 0xB000 }
  | .rnd _ _      => { mask := 0xF000, value := 0xC000 }
  | .drw _ _ _    => { mask := 0xF000, value := 0xD000 }
  | .skp _        => { mask := 0xF0FF, value := 0xE09E }
  | .sknp _       => { mask := 0xF0FF, value := 0xE0A1 }
  | .ldVxDt _     => { mask := 0xF0FF, value := 0xF007 }
  | .ldVxK _      => { mask := 0xF0FF, value := 0xF00A }
  | .ldDtVx _     => { mask := 0xF0FF, value := 0xF015 }
  | .ldStVx _     => { mask := 0xF0FF, value := 0xF018 }
  | .addI _       => { mask := 0xF0FF, value := 0xF01E }
  | .ldF _        => { mask := 0xF0FF, value := 0xF029 }
  | .ldB _        => { mask := 0xF0FF, value := 0xF033 }
  | .ldIVx _      => { mask := 0xF0FF, value := 0xF055 }
  | .ldVxI _      => { mask := 0xF0FF, value := 0xF065 }

/-- The 34 rows of R74, in its order. -/
def opcodeRows : List OpcodeRow :=
  [.cls 0, .ret 0, .jp 0, .call 0, .seImm 0 0, .sneImm 0 0, .seReg 0 0 0, .ldX 0 0, .addImm 0 0, .ldReg 0 0, .orReg 0 0,
    .andReg 0 0, .xorReg 0 0, .addReg 0 0, .sub 0 0, .shr 0 0, .subn 0 0, .shl 0 0, .sneReg 0 0 0, .ldI 0, .jpV0 0, .rnd 0 0,
    .drw 0 0 0, .skp 0, .sknp 0, .ldVxDt 0, .ldVxK 0, .ldDtVx 0, .ldStVx 0, .addI 0, .ldF 0, .ldB 0, .ldIVx 0,
    .ldVxI 0].map Instr.row

/-! ### The host's table words -/

/-- The instruction word `w` of a table row of `nbits` bits, given to the decoder as the two bytes memory would hold (R55). Bits at and above
`nbits` are 0. -/
def decodeTableWord (nbits w : Nat) : Option Instr :=
  match decodeBytes (bytesOfWord (BitVec.ofNat 16 (w % 2 ^ nbits))) with
  | .instr i _ => some i
  | .failure _ _ => none
  | .tooShort _ => none

end Sys2Proof
end

