-- ==== Sys2Proof/Machine/State.lean ====
section
/-! DEFINITION. The state of the core as plain data (10_state.md), the reasons a step can stop, and the state right after reset (R37). -/

namespace Sys2Proof.Machine

/-- `fsm`, the control state (R32). HALTED, FAULTED and STOPPED are terminal. -/
inductive Fsm where
  | running
  | waitingForKey
  | halted
  | faulted
  | stopped
  deriving DecidableEq, Repr

/-- `fault_cause` (R241). -/
inductive FaultCause where
  | none
  | stackOverflow
  | stackUnderflow
  | fetchOob
  | dataOob
  | keyIndexOob
  | imageTooLarge
  deriving DecidableEq, Repr

/-- The fault record (R33): `fault_cause`, `fault_pc`, `fault_sp`, `fault_addr`, `fault_word`. -/
structure FaultRecord where
  cause : FaultCause
  pc    : Word
  sp    : Fin 17
  addr  : BitVec 17
  word  : Word
  deriving DecidableEq, Repr

/-- The fault record after reset (R37): every field 0, cause NONE. -/
def FaultRecord.zero : FaultRecord := { cause := .none, pc := 0, sp := 0, addr := 0, word := 0 }

/-- The decode-failure report (R34): `bad_word` and `bad_pc`. -/
structure DecodeReport where
  badWord : Word
  badPc   : Word
  deriving DecidableEq, Repr

/-- An event the host presents to the core (R100, R102). DESIGN CHOICE: the model takes one per `step` (log 1). -/
inductive Event where
  /-- Reset with a program image (R270) -/
  | reset (image : List Byte)
  /-- Step with the keypad vector, the random byte and the stop signal (R103, R104) -/
  | step  (keypad : Word) (rnd : Byte) (stop : Bool)
  /-- Tick (R115) -/
  | tick
  deriving DecidableEq, Repr

/-- Memory (20_memory.md R50): the bytes that differ from what an unlisted address reads as, addresses strictly rising (log 15). -/
abbrev Memory := List Host.Cell

/-- `fb[py][px]` (R29): 32 rows of 64 pixels. -/
abbrev Framebuffer := Vector (Vector Bool 64) 32

/-- The all-clear framebuffer. -/
def Framebuffer.clear : Framebuffer := Vector.replicate 32 (Vector.replicate 64 false)

/-- The whole machine. The last three fields are the model's own: the parameters of R7, the events still to come, and the count of free random
bytes drawn. -/
structure State where
  /-- V0..VF (R20); VF is `V[15]` (R21) -/
  V          : Vector Byte 16
  /-- the index register (R22) -/
  I          : Word
  /-- the program counter (R23) -/
  pc         : Word
  /-- the return stack (R24) -/
  stack      : Vector Word 16
  /-- the stack depth 0..16 (R25; log 12) -/
  sp         : Fin 17
  /-- the delay timer (R27) -/
  DT         : Byte
  /-- the sound timer (R28) -/
  ST         : Byte
  /-- the 4096 bytes of memory (R50) -/
  mem        : Memory
  /-- the framebuffer (R29) -/
  fb         : Framebuffer
  /-- the keypad sample of the step (R30, R104) -/
  keys       : Word
  /-- the random sample of the step, `rnd_s` (R104; log 8) -/
  rndS       : Byte
  /-- `wait_key` (R31) -/
  waitKey    : Bool
  /-- `wait_reg` (R31) -/
  waitReg    : Nibble
  /-- the control state (R32) -/
  fsm        : Fsm
  /-- the fault record (R33) -/
  fault      : FaultRecord
  /-- the decode-failure report (R34) -/
  report     : DecodeReport
  /-- the output strobe `frame` of the last event (R101, R111; log 7) -/
  frame      : Bool
  /-- the output strobe `decode_fail` of the last event (R101, R107; log 7) -/
  decodeFail : Bool
  /-- DECODE_FAIL_POLICY and FONT_TABLE (R7; logs 4 and 5); no event changes them -/
  params     : Params
  /-- the events the host presents next, oldest first (R102; log 1) -/
  pending    : List Event
  /-- how many free random bytes unscheduled steps have drawn (log 3) -/
  draws      : Nat
  deriving DecidableEq, Repr

/-- The reasons a run leaves the machine's own states: there are none. Every fatal error of the spec is the next state FAULTED with its record
(R245, R249), so no constructor is needed (log 6, safe). -/
inductive Fault : Type
  deriving DecidableEq, Repr

/-- The reasons the model has no meaning for an instruction. -/
inductive Refusal : Type where
  /-- raised only by an arm of `exec` whose instruction has no meaning yet (safe: the run stops); no arm raises it now -/
  | notModelled (mnemonic : String)
  deriving DecidableEq, Repr

/-- The state after Reset with an empty image and the default parameters (R37, R270): memory lists nothing, since an unlisted byte reads as its
reset contents. -/
def State.reset : State :=
  { V := Vector.replicate 16 0, I := 0, pc := 0x200, stack := Vector.replicate 16 0, sp := 0, DT := 0, ST := 0,
    mem := [], fb := Framebuffer.clear, keys := 0, rndS := 0, waitKey := false, waitReg := 0, fsm := .running,
    fault := FaultRecord.zero, report := { badWord := 0, badPc := 0 }, frame := false, decodeFail := false,
    params := Config.defaultParams, pending := [], draws := 0 }

end Sys2Proof.Machine
end

