-- ==== Sys2Proof/Machine/Ops.lean ====
section
/-! DEFINITION. The named operations over memory, registers, stack, timers and framebuffer that the meanings share, and the taking of a fault.
There is no return from a fault (60_exceptions.md R250): only a Reset event leaves FAULTED. -/

namespace Sys2Proof.Machine

/-- One step's outcome. -/
abbrev Result := Host.Outcome State Fault Refusal

/-! ### Memory (20_memory.md) -/

/-- What an address reads as when memory does not list it: its reset contents (R57, R271, R274). -/
def unlistedByte (a : Nat) : Byte :=
  if h : a < 80 then Config.defaultFont[a] else 0

/-- The listed byte of an address. -/
def lookupByte (a : Nat) : Memory → Option Byte
  | [] => none
  | c :: m => if c.1 = a then some c.2 else lookupByte a m

/-- The byte at an address in range (R50). -/
def readByte (m : Memory) (a : Nat) : Byte := (lookupByte a m).getD (unlistedByte a)

/-- Take an address out of the listing. -/
def eraseByte (a : Nat) : Memory → Memory
  | [] => []
  | c :: m => if c.1 = a then eraseByte a m else c :: eraseByte a m

/-- Put a cell into a rising listing that does not list its address. -/
def insertCell (c : Host.Cell) : Memory → Memory
  | [] => [c]
  | d :: m => if c.1 < d.1 then c :: d :: m else d :: insertCell c m

/-- `mem[a] <- v` for an address in range (R53). Writing what the unlisted address reads as takes the cell out, so equal memories are equal lists. -/
def writeByte (m : Memory) (a : Nat) (v : Byte) : Memory :=
  if v = unlistedByte a then eraseByte a m else insertCell (a, v) (eraseByte a m)

/-- The n bytes at a, a+1, ... (R51, R56: increasing address order). -/
def readBytes (m : Memory) (a : Nat) : Nat → List Byte
  | 0 => []
  | n + 1 => readByte m a :: readBytes m (a + 1) n

/-- Write bytes at a, a+1, ... (R51, R56: increasing address order). -/
def writeBytes (m : Memory) (a : Nat) : List Byte → Memory
  | [] => m
  | b :: bs => writeBytes (writeByte m a b) (a + 1) bs

/-- The listing's addresses rise strictly from `lo` on. -/
def risingFrom (lo : Nat) : Memory → Bool
  | [] => true
  | c :: m => decide (lo ≤ c.1) && risingFrom (c.1 + 1) m

/-- The canonical form: addresses strictly rising and below 4096, and no entry equal to what its address reads as unlisted. -/
def Memory.wf (m : Memory) : Bool :=
  risingFrom 0 m && m.all (fun c => decide (c.1 < Config.memSize) && decide (c.2 ≠ unlistedByte c.1))

/-- The range check of R53 and R54 on the `len` addresses from `base`, computed exactly: the lowest address above 0xFFF, if there is one. -/
def firstOutOfRange (base len : Nat) : Option Nat :=
  if 0 < len ∧ 0xFFF < base + (len - 1) then some (max base 0x1000) else none

/-! ### General registers (10_state.md R20) -/

/-- `V[x]` (R10). -/
def readV (s : State) (x : Nibble) : Byte := s.V[x.toNat]'x.isLt

/-- `VF` (R21). -/
abbrev vf : Nibble := 0xF

/-- `V[x] <- b` (R10). -/
def setV (x : Nibble) (b : Byte) (s : State) : State := { s with V := s.V.set x.toNat b x.isLt }

/-- `V[k], V[k+1], ... <- bytes`, for the register load (R185). -/
def loadRegs (v : Vector Byte 16) (k : Nat) : List Byte → Vector Byte 16
  | [] => v
  | b :: bs => loadRegs (v.setIfInBounds k b) (k + 1) bs

/-- The bytes V0..V[x], inclusive of x, for the register dump (R184). -/
def dumpRegs (v : Vector Byte 16) (x : Nibble) : List Byte := v.toList.take (x.toNat + 1)

/-! ### The other registers -/

/-- `I <- v` (R22). -/
def setI (v : Word) (s : State) : State := { s with I := v }

/-- `pc <- target` (R23). -/
def setPc (target : Word) (s : State) : State := { s with pc := target }

/-- `adv(k)` of R10: `trunc_16(pc + k)`. -/
def adv (s : State) (k : Word) : Word := s.pc + k

/-- `pc <- adv(2)`: on to the next instruction (R110). -/
def next (s : State) : State := setPc (adv s 2) s

/-- `pc <- adv(4)` if the condition holds, else `pc <- adv(2)`: the skips (R110). -/
def skipIf (c : Bool) (s : State) : State := setPc (if c then adv s 4 else adv s 2) s

/-- `DT <- v` (R27). -/
def setDT (v : Byte) (s : State) : State := { s with DT := v }

/-- `ST <- v` (R28). -/
def setST (v : Byte) (s : State) : State := { s with ST := v }

/-- Memory replaced (R53). -/
def setMem (m : Memory) (s : State) : State := { s with mem := m }

/-- Framebuffer replaced (R29). -/
def setFb (f : Framebuffer) (s : State) : State := { s with fb := f }

/-- All general registers replaced (R185). -/
def setRegs (v : Vector Byte 16) (s : State) : State := { s with V := v }

/-! ### Stack controller (41_control_flow.md R130, R131) -/

/-- `Push(v)` (R130): none when `sp = 16`. -/
def push (v : Word) (s : State) : Option State :=
  if h : s.sp.val < 16 then
    some { s with stack := s.stack.set s.sp.val v h, sp := ⟨s.sp.val + 1, Nat.succ_lt_succ h⟩ }
  else none

/-- `Pop()` (R131): none when `sp = 0`; the entry is not cleared (10_state.md R26). -/
def pop (s : State) : Option (Word × State) :=
  if h : 0 < s.sp.val then
    have hd : s.sp.val - 1 < 16 := by have := s.sp.isLt; omega
    some (s.stack[s.sp.val - 1], { s with sp := ⟨s.sp.val - 1, Nat.lt_succ_of_lt hd⟩ })
  else none

/-! ### Framebuffer (44_display.md) -/

/-- `fb[py][px]` (R29). -/
def pixel (f : Framebuffer) (px : Fin 64) (py : Fin 32) : Bool := f[py][px]

/-- `fb[py][px] <- fb[py][px] XOR 1` (R202). -/
def togglePixel (f : Framebuffer) (px : Fin 64) (py : Fin 32) : Framebuffer :=
  f.set py (f[py].set px (!pixel f px py))

/-! ### Wait-for-key state (10_state.md R31) -/

/-- `wait_key <- 1; wait_reg <- x; fsm <- WAITING_FOR_KEY`, pc unchanged (R230). -/
def startWait (x : Nibble) (s : State) : State := { s with waitKey := true, waitReg := x, fsm := .waitingForKey }

/-- `wait_key <- 0; fsm <- RUNNING` (R230). -/
def endWait (s : State) : State := { s with waitKey := false, fsm := .running }

/-! ### Faults and terminal states (60_exceptions.md) -/

/-- The numeric value of `fault_cause` (R241). -/
def FaultCause.code : FaultCause → Nat
  | .none => 0
  | .stackOverflow => 1
  | .stackUnderflow => 2
  | .fetchOob => 3
  | .dataOob => 4
  | .keyIndexOob => 5
  | .imageTooLarge => 6

/-- `raise Fault(cause, addr)` (R10, R241, R245, R249): write the record, enter FAULTED, change nothing else. -/
def raiseFault (cause : FaultCause) (addr : Nat) (word : Word) (s : State) : State :=
  { s with fsm := .faulted,
           fault := { cause := cause, pc := s.pc, sp := s.sp, addr := BitVec.ofNat 17 addr, word := word } }

/-- `fsm` is RUNNING or WAITING_FOR_KEY: steps and ticks act, and a step ending here asserts `frame` (R103, R111, R115). -/
def Fsm.live : Fsm → Bool
  | .running => true
  | .waitingForKey => true
  | .halted => false
  | .faulted => false
  | .stopped => false

/-- The output `sound_on` (R101). -/
def State.soundOn (s : State) : Bool := decide (s.ST ≠ 0)

/-- No strobe is asserted yet in this event (R101; log 7). -/
def clearStrobes (s : State) : State := { s with frame := false, decodeFail := false }

/-- The end of a step: `frame` is asserted if it ended in RUNNING or WAITING_FOR_KEY (R111). -/
def endStep (s : State) : State := { s with frame := s.fsm.live }

/-- `keys <- keypad; rnd_s <- rnd` (R104). -/
def sampleInputs (keypad : Word) (rnd : Byte) (s : State) : State := { s with keys := keypad, rndS := rnd }

/-- `bad_word <- w; bad_pc <- pc; assert decode_fail` (R34, R107). -/
def reportFailure (w : Word) (s : State) : State :=
  { s with report := { badWord := w, badPc := s.pc }, decodeFail := true }

/-- `fsm <- f` (R32). -/
def setFsm (f : Fsm) (s : State) : State := { s with fsm := f }

/-- A decode failure (R107): report it under either policy, then halt with pc in place (R247) or go on at `pc + 2` in RUNNING (R112, R248). -/
def takeDecodeFailure (w : Word) (s : State) : State :=
  match s.params.decodeFailPolicy with
  | .halt => setFsm .halted (reportFailure w s)
  | .skip => next (setFsm .running (reportFailure w s))

/-! ### The host's events (R102; log 1) -/

/-- The host's remaining events. -/
def setPending (rest : List Event) (s : State) : State := { s with pending := rest }

/-- One more free random byte is drawn (log 3). -/
def countDraw (s : State) : State := { s with draws := s.draws + 1 }

/-! ### Timer tick (40_cycle_fsm.md R115) -/

/-- One decrement of a timer that stays at zero. -/
def decrement (t : Byte) : Byte := if t ≠ 0 then t - 1 else t

/-- `Tick` (R115): no effect in a terminal state. -/
def tick (s : State) : State :=
  if s.fsm.live then { s with DT := decrement s.DT, ST := decrement s.ST } else s

/-! ### Fetch (40_cycle_fsm.md R105) -/

/-- What a fetch finds. -/
inductive Fetched where
  | word (w : Word)
  /-- FETCH_OOB with the lowest out-of-range address of pc, pc+1 -/
  | outOfRange (addr : Nat)
  deriving DecidableEq, Repr

/-- The big-endian word at pc and pc+1 (R55, R105), or the first address out of range. -/
def fetch (s : State) : Fetched :=
  match firstOutOfRange s.pc.toNat 2 with
  | some a => .outOfRange a
  | none => .word (wordOfBytes (readByte s.mem s.pc.toNat) (readByte s.mem (s.pc.toNat + 1)))

/-! ### Reset (70_reset_and_hazards.md) -/

/-- Memory after the zero fill and the font copy (R271); a font other than the default shows as listed differences. -/
def fontMemory (font : FontTable) : Memory := writeBytes [] 0 font.toList

/-- Reset with an image (R270..R272): every field at its reset value, the font and the image in memory; an image that does not fit is not
loaded and the core enters FAULTED with IMAGE_TOO_LARGE (R254). -/
def bootState (p : Params) (image : List Byte) : State :=
  let s := { State.reset with params := p, mem := fontMemory p.fontTable }
  if imageFits image then { s with mem := writeBytes s.mem Config.entry image }
  else raiseFault .imageTooLarge 0x1000 0 s

/-- The Reset event in any state (R275): no core state survives; the parameters and the host's remaining events do. -/
def takeReset (image : List Byte) (s : State) : State :=
  { bootState s.params image with pending := s.pending, draws := s.draws }

end Sys2Proof.Machine
end

