-- ==== Sys2Proof/Machine/Operands.lean ====
section
/-! DEFINITION. Operand forms: everything a meaning reads before it writes (40_cycle_fsm.md R108). Register operands are `readV`, immediates are
the constructor's own fields (30_encoding.md R72); the rest is here. -/

namespace Sys2Proof.Machine

/-- `zext_16` (00_scope.md R9) of an 8-bit value. -/
def zextByte (b : Byte) : Word := b.setWidth 16

/-- `zext_16` (R9) of the 12-bit address field (R72). -/
def zextAddr (a : Addr12) : Word := a.setWidth 16

/-- The exact effective address `I` (20_memory.md R54): `I + k` is this plus `k`, never wrapped. -/
def addrI (s : State) : Nat := s.I.toNat

/-- The sprite rows `mem[I..I+n-1]` (44_display.md R201). -/
def spriteRows (s : State) (n : Nibble) : List Byte := readBytes s.mem (addrI s) n.toNat

/-- Bit of column `c` of a sprite row: column 0 is bit 7 (R201). -/
def spriteBit (row : Byte) (c : Nat) : Bool := row.getLsbD (7 - c)

/-- The column a sprite's column `c` falls on, with the wrap of R203. -/
def wrapX (vx : Byte) (c : Nat) : Fin 64 := Fin.ofNat 64 (vx.toNat + c)

/-- The row a sprite's row `r` falls on, with the wrap of R203. -/
def wrapY (vy : Byte) (r : Nat) : Fin 32 := Fin.ofNat 32 (vy.toNat + r)

/-- The pressed flag of key `k` in the step's sample (R30). -/
def keyPressed (s : State) (k : Nat) : Bool := s.keys.getLsbD k

/-- The key index check of 45_keys_timers_random.md R221: the index if it is out of range. -/
def keyOutOfRange (k : Byte) : Option Nat := if 0x0F < k.toNat then some k.toNat else none

/-- The lowest pressed key of a sample, if any is pressed (R230). -/
def lowestKey (keys : Word) : Option Nat := (List.range 16).find? (fun k => keys.getLsbD k)

/-- The hundreds, tens and ones digits of a byte, as three bytes (43_index_memory.md R183). -/
def bcdDigits (a : Byte) : List Byte :=
  [BitVec.ofNat 8 (a.toNat / 100), BitVec.ofNat 8 (a.toNat / 10 % 10), BitVec.ofNat 8 (a.toNat % 10)]

/-- The glyph address of a byte, not masked (R182). -/
def glyphAddr (a : Byte) : Word := BitVec.ofNat 16 (a.toNat * 5)

end Sys2Proof.Machine
end

