-- ==== Sys2Proof/Machine/Flags.lean ====
section
/-! DEFINITION. Every flag computation: the alu_carry_flag block (42_alu.md R150, R157..R161) and the sprite_collision_detector with the
framebuffer_xor_engine (44_display.md R202, R204). -/

namespace Sys2Proof.Machine

/-- A flag as the byte VF holds. -/
def flagByte (b : Bool) : Byte := if b then 1 else 0

/-- Carry of ADD (R157): the true sum exceeds 255. -/
def carryFlag (a b : Byte) : Byte := flagByte (decide (255 < a.toNat + b.toNat))

/-- NOT borrow of `a - b` (R158, R160): `a >= b`. -/
def noBorrowFlag (a b : Byte) : Byte := flagByte (decide (b.toNat ≤ a.toNat))

/-- The bit SHR shifts out (R159). -/
def shrFlag (a : Byte) : Byte := flagByte (a.getLsbD 0)

/-- The bit SHL shifts out (R161). -/
def shlFlag (a : Byte) : Byte := flagByte (a.getLsbD 7)

/-- ADD, SUB, SUBN: the result first, the flag last, so that VF ends as the flag (R150). -/
def writeResultThenFlag (x : Nibble) (result flag : Byte) (s : State) : State := setV vf flag (setV x result s)

/-- SHR, SHL: the flag first, the result last, so that VF as destination ends as the result (R150). -/
def writeFlagThenResult (x : Nibble) (flag result : Byte) (s : State) : State := setV x result (setV vf flag s)

/-- A draw in progress: the framebuffer and whether a set pixel has been turned off. -/
structure Drawing where
  fb        : Framebuffer
  collision : Bool
  deriving DecidableEq, Repr

/-- One pixel of the loop of R202: a set sprite bit XORs the pixel and collides if the pixel was set. -/
def drawPixel (bit : Bool) (px : Fin 64) (py : Fin 32) (d : Drawing) : Drawing :=
  if bit then { fb := togglePixel d.fb px py, collision := d.collision || pixel d.fb px py } else d

/-- One sprite row, columns 0..7 (R202). -/
def drawRow (vx : Byte) (py : Fin 32) (row : Byte) (d : Drawing) : Drawing :=
  [0, 1, 2, 3, 4, 5, 6, 7].foldl (fun d c => drawPixel (spriteBit row c) (wrapX vx c) py d) d

/-- The sprite's rows from row number `r` on (R202). -/
def drawRows (vx vy : Byte) (r : Nat) : List Byte → Drawing → Drawing
  | [], d => d
  | row :: rows, d => drawRows vx vy (r + 1) rows (drawRow vx (wrapY vy r) row d)

/-- The whole draw of R202, from no collision. -/
def drawSprite (vx vy : Byte) (rows : List Byte) (f : Framebuffer) : Drawing :=
  drawRows vx vy 0 rows { fb := f, collision := false }

end Sys2Proof.Machine
end

