-- ==== Sys2Proof/Machine/Alu.lean ====
section
/-! DEFINITION. Meanings of the register-arithmetic family (42_alu.md R151..R161). Every one ends with `pc <- adv(2)`. -/

namespace Sys2Proof.Machine

/-- LD Vx, kk (R151). -/
def execLdX (x : Nibble) (kk : Byte) (s : State) : Result := .next (next (setV x kk s))

/-- ADD Vx, kk (R152): no carry is written. -/
def execAddImm (x : Nibble) (kk : Byte) (s : State) : Result := .next (next (setV x (readV s x + kk) s))

/-- LD Vx, Vy (R153). -/
def execLdReg (x y : Nibble) (s : State) : Result := .next (next (setV x (readV s y) s))

/-- OR Vx, Vy (R154): VF is not reset. -/
def execOr (x y : Nibble) (s : State) : Result := .next (next (setV x (readV s x ||| readV s y) s))

/-- AND Vx, Vy (R155). -/
def execAnd (x y : Nibble) (s : State) : Result := .next (next (setV x (readV s x &&& readV s y) s))

/-- XOR Vx, Vy (R156). -/
def execXor (x y : Nibble) (s : State) : Result := .next (next (setV x (readV s x ^^^ readV s y) s))

/-- ADD Vx, Vy (R157). -/
def execAddReg (x y : Nibble) (s : State) : Result :=
  .next (next (writeResultThenFlag x (readV s x + readV s y) (carryFlag (readV s x) (readV s y)) s))

/-- SUB Vx, Vy (R158). -/
def execSub (x y : Nibble) (s : State) : Result :=
  .next (next (writeResultThenFlag x (readV s x - readV s y) (noBorrowFlag (readV s x) (readV s y)) s))

/-- SHR Vx (R159): the shift source is Vx, and Vy is not read. -/
def execShr (x _y : Nibble) (s : State) : Result :=
  .next (next (writeFlagThenResult x (shrFlag (readV s x)) (readV s x >>> 1) s))

/-- SUBN Vx, Vy (R160): `second - first`. -/
def execSubn (x y : Nibble) (s : State) : Result :=
  .next (next (writeResultThenFlag x (readV s y - readV s x) (noBorrowFlag (readV s y) (readV s x)) s))

/-- SHL Vx (R161): the shift source is Vx, and Vy is not read. -/
def execShl (x _y : Nibble) (s : State) : Result :=
  .next (next (writeFlagThenResult x (shlFlag (readV s x)) (readV s x <<< 1) s))

end Sys2Proof.Machine
end

