-- ==== Sys2Proof/Machine/Control.lean ====
section
/-! DEFINITION. Meanings of the control-flow family (41_control_flow.md R132..R139). -/

namespace Sys2Proof.Machine

/-- RET (R132): `pc <- Pop()`, exactly. STACK_UNDERFLOW when `sp = 0` (R243). -/
def execRet (z : Nibble) (s : State) : Result :=
  match pop s with
  | none => .next (raiseFault .stackUnderflow 0 (encode (.ret z)) s)
  | some (target, t) => .next (setPc target t)

/-- JP nnn (R133). -/
def execJp (nnn : Addr12) (s : State) : Result := .next (setPc (zextAddr nnn) s)

/-- CALL nnn (R134): push the address of the next instruction. STACK_OVERFLOW when `sp = 16` (R242). -/
def execCall (nnn : Addr12) (s : State) : Result :=
  match push (adv s 2) s with
  | none => .next (raiseFault .stackOverflow 0 (encode (.call nnn)) s)
  | some t => .next (setPc (zextAddr nnn) t)

/-- SE Vx, kk (R135). -/
def execSeImm (x : Nibble) (kk : Byte) (s : State) : Result := .next (skipIf (decide (readV s x = kk)) s)

/-- SNE Vx, kk (R136). -/
def execSneImm (x : Nibble) (kk : Byte) (s : State) : Result := .next (skipIf (decide (readV s x ≠ kk)) s)

/-- SE Vx, Vy (R137); the low nibble is ignored. -/
def execSeReg (x y _n : Nibble) (s : State) : Result := .next (skipIf (decide (readV s x = readV s y)) s)

/-- SNE Vx, Vy (R138); the low nibble is ignored. -/
def execSneReg (x y _n : Nibble) (s : State) : Result := .next (skipIf (decide (readV s x ≠ readV s y)) s)

/-- JP V0, nnn (R139): the register is always V0. -/
def execJpV0 (nnn : Addr12) (s : State) : Result := .next (setPc (zextAddr nnn + zextByte (readV s 0)) s)

end Sys2Proof.Machine
end

