-- ==== Sys2Proof/Machine/Display.lean ====
section
/-! DEFINITION. Meanings of the display family (44_display.md R200..R205). -/

namespace Sys2Proof.Machine

/-- CLS (R200), whatever the ignored bits hold (30_encoding.md R75). -/
def execCls (_z : Nibble) (s : State) : Result := .next (next (setFb Framebuffer.clear s))

/-- DRW Vx, Vy, n (R202): V[x] and V[y] are read before VF is written, VF is written whatever it held. DATA_OOB before any effect (R245); with
n = 0 nothing is read (R205). -/
def execDrw (x y n : Nibble) (s : State) : Result :=
  match firstOutOfRange (addrI s) n.toNat with
  | some a => .next (raiseFault .dataOob a (encode (.drw x y n)) s)
  | none =>
    let d := drawSprite (readV s x) (readV s y) (spriteRows s n) s.fb
    .next (next (setFb d.fb (setV vf (flagByte d.collision) s)))

end Sys2Proof.Machine
end

