-- ==== Sys2Proof/Machine/IndexMemory.lean ====
section
/-! DEFINITION. Meanings of the index and memory family (43_index_memory.md R180..R185). The range check comes before any effect. -/

namespace Sys2Proof.Machine

/-- LD I, nnn (R180). -/
def execLdI (nnn : Addr12) (s : State) : Result := .next (next (setI (zextAddr nnn) s))

/-- ADD I, Vx (R181): wraps at 16 bits, writes no flag. -/
def execAddI (x : Nibble) (s : State) : Result := .next (next (setI (s.I + zextByte (readV s x)) s))

/-- LD F, Vx (R182). -/
def execLdF (x : Nibble) (s : State) : Result := .next (next (setI (glyphAddr (readV s x)) s))

/-- LD B, Vx (R183): three digits at I, I+1, I+2. -/
def execLdB (x : Nibble) (s : State) : Result :=
  match firstOutOfRange (addrI s) 3 with
  | some a => .next (raiseFault .dataOob a (encode (.ldB x)) s)
  | none => .next (next (setMem (writeBytes s.mem (addrI s) (bcdDigits (readV s x))) s))

/-- LD [I], Vx (R184): V0..V[x] to I..I+x; I is unchanged. -/
def execLdIVx (x : Nibble) (s : State) : Result :=
  match firstOutOfRange (addrI s) (x.toNat + 1) with
  | some a => .next (raiseFault .dataOob a (encode (.ldIVx x)) s)
  | none => .next (next (setMem (writeBytes s.mem (addrI s) (dumpRegs s.V x)) s))

/-- LD Vx, [I] (R185): I..I+x to V0..V[x]; I is unchanged. -/
def execLdVxI (x : Nibble) (s : State) : Result :=
  match firstOutOfRange (addrI s) (x.toNat + 1) with
  | some a => .next (raiseFault .dataOob a (encode (.ldVxI x)) s)
  | none => .next (next (setRegs (loadRegs s.V 0 (readBytes s.mem (addrI s) (x.toNat + 1))) s))

end Sys2Proof.Machine
end

