-- ==== Sys2Proof/Machine/KeysTimers.lean ====
section
/-! DEFINITION. Meanings of the random, keypad and timer family (45_keys_timers_random.md R220..R231). -/

namespace Sys2Proof.Machine

/-- RND Vx, kk (R220): the step's random sample AND kk. -/
def execRnd (x : Nibble) (kk : Byte) (s : State) : Result := .next (next (setV x (s.rndS &&& kk) s))

/-- SKP Vx (R222). KEY_INDEX_OOB when V[x] > 0x0F (R221, R246). -/
def execSkp (x : Nibble) (s : State) : Result :=
  match keyOutOfRange (readV s x) with
  | some k => .next (raiseFault .keyIndexOob k (encode (.skp x)) s)
  | none => .next (skipIf (keyPressed s (readV s x).toNat) s)

/-- SKNP Vx (R223). KEY_INDEX_OOB when V[x] > 0x0F (R221, R246). -/
def execSknp (x : Nibble) (s : State) : Result :=
  match keyOutOfRange (readV s x) with
  | some k => .next (raiseFault .keyIndexOob k (encode (.sknp x)) s)
  | none => .next (skipIf (!keyPressed s (readV s x).toNat) s)

/-- LD Vx, DT (R224). -/
def execLdVxDt (x : Nibble) (s : State) : Result := .next (next (setV x s.DT s))

/-- LD Vx, K (R230): the lowest pressed key, or wait with pc unchanged. -/
def execLdVxK (x : Nibble) (s : State) : Result :=
  match lowestKey s.keys with
  | some k => .next (next (endWait (setV x (BitVec.ofNat 8 k) s)))
  | none => .next (startWait x s)

/-- LD DT, Vx (R225). -/
def execLdDtVx (x : Nibble) (s : State) : Result := .next (next (setDT (readV s x) s))

/-- LD ST, Vx (R226). -/
def execLdStVx (x : Nibble) (s : State) : Result := .next (next (setST (readV s x) s))

end Sys2Proof.Machine
end

