-- ==== Sys2Proof/Machine/Cycle.lean ====
section
/-! DEFINITION. The step of 40_cycle_fsm.md R119 around `exec`, and the three events of R100. -/

namespace Sys2Proof.Machine

/-- The end of an execute stage: a completed or faulted instruction ends the step (R111); anything else passes through. -/
def finish : Result → Result
  | .next t => .next (endStep t)
  | .fault r => .fault r
  | .refused r => .refused r

/-- Fetch, decode and execute on sampled inputs (R105..R111). -/
def fetchExecute (s : State) : Result :=
  match fetch s with
  | .outOfRange a => .next (endStep (raiseFault .fetchOob a 0 s))
  | .word w =>
    match decode w with
    | .failure w' => .next (endStep (takeDecodeFailure w' s))
    | .instr i => finish (exec i s)

/-- `Step(keypad, rnd, stop)` (R103, R119): nothing in a terminal state; the stop signal before anything else; then sample and run. -/
def cycle (keypad : Word) (rnd : Byte) (stop : Bool) (s : State) : Result :=
  if s.fsm.live then
    if stop then .next (setFsm .stopped (clearStrobes s))
    else fetchExecute (sampleInputs keypad rnd (clearStrobes s))
  else .next (clearStrobes s)

/-- One event (R102): Reset, Step or Tick, each to completion. -/
def takeEvent (e : Event) (s : State) : Result :=
  match e with
  | .reset image => .next (takeReset image s)
  | .step keypad rnd stop => cycle keypad rnd stop s
  | .tick => .next (tick (clearStrobes s))

/-- The step taken when the host has scheduled nothing: no key, no stop, a free random byte (logs 2 and 3). -/
def unscheduledStep (s : State) : Result := cycle 0 (Config.freeRnd s.draws) false (countDraw s)

/-- The next scheduled event, or an unscheduled step. -/
def takeNext (s : State) : Result :=
  match s.pending with
  | [] => unscheduledStep s
  | e :: rest => takeEvent e (setPending rest s)

/-- The event the next `step` takes is a Step with `stop = 0`. -/
def nextEventRuns : List Event → Bool
  | [] => true
  | .step _ _ stop :: _ => !stop
  | .reset _ :: _ => false
  | .tick :: _ => false

/-- Memory with an instruction word at pc (R55). -/
def placeWord (s : State) (w : Word) : State := setMem (writeBytes s.mem s.pc.toNat (bytesOfWord w)) s

/-- The state brought to where its next step fetches: a live `fsm`, a pc that can fetch, and a step that runs as the next event. Each is left
as it is where it already allows the fetch (log 17). -/
def readyToFetch (s : State) : State :=
  { s with fsm := if s.fsm.live then s.fsm else .running,
           pc := if 0xFFE < s.pc.toNat then 0x200 else s.pc,
           pending := if nextEventRuns s.pending then s.pending else .step 0 0 false :: s.pending }

end Sys2Proof.Machine
end

