-- ==== Sys2Proof/Machine/Step.lean ====
section
/-! DEFINITION. One step of the machine: the next event the host presents (40_cycle_fsm.md R102, R119). -/

namespace Sys2Proof.Machine

/-- One event: the oldest pending one, or an unscheduled step when none is pending. -/
def step (s : State) : Host.Outcome State Fault Refusal := takeNext s

/-- `s` with the instruction word of a table row where the next step fetches. Bits at and above `nbits` are 0. -/
def State.withFetchWord (s : State) (nbits w : Nat) : State :=
  placeWord (readyToFetch s) (BitVec.ofNat 16 (w % 2 ^ nbits))

end Sys2Proof.Machine
end

