-- ==== Sys2Proof/Safety.lean ====
section
/-! DEFINITION. What counts as a safe run: the invariants claims are stated with. -/

namespace Sys2Proof.Machine

/-- The instruction at pc decodes to `i`. -/
def Fetches (s : State) (i : Instr) : Prop := ∃ w, fetch s = .word w ∧ decode w = .instr i

/-- The wait-for-key invariant (10_state.md R31, 40_cycle_fsm.md R113, 45_keys_timers_random.md R231): while waiting, `wait_key` is set and the
instruction at pc is the LD Vx,K of `wait_reg`; while running, `wait_key` is clear. -/
def WaitInv (s : State) : Prop :=
  (s.fsm = .waitingForKey → s.waitKey = true ∧ Fetches s (.ldVxK s.waitReg)) ∧ (s.fsm = .running → s.waitKey = false)

/-- The fault record tells of a fault exactly in FAULTED (10_state.md R33, 60_exceptions.md R247, R249). -/
def FaultInv (s : State) : Prop :=
  (s.fsm = .faulted → s.fault.cause ≠ .none) ∧ (s.fsm ≠ .faulted → s.fault = FaultRecord.zero)

/-- Every state a run from reset can reach satisfies this: canonical memory, the wait rule, the fault-record rule. -/
structure CoreInv (s : State) : Prop where
  mem   : Memory.wf s.mem = true
  wait  : WaitInv s
  fault : FaultInv s

/-- Where pc and the live return addresses can be (41_control_flow.md R139, 10_state.md R23): no jump passes 0x10FE, no return address 0x1000. -/
structure PcInv (s : State) : Prop where
  pc    : s.pc.toNat ≤ 0x10FE
  stack : ∀ k, (h : k < 16) → k < s.sp.val → s.stack[k].toNat ≤ 0x1000

/-- No fatal error has ended the run. -/
def Unfaulted (s : State) : Prop := s.fsm ≠ .faulted

end Sys2Proof.Machine
end

