-- ==== Sys2Proof/Certificates/Slice0/Obligations.lean ====
section
/-! DEFINITION. The statements about the model, for the provers. Each docstring names the rule of spec/ the statement formalises. In all of them
the host's events are the model's list `pending`, one event a step (log 1), and the strobes are fields of the last event (log 7). -/

open Sys2Proof Sys2Proof.Machine

/-! ### Words the statements are written in -/

namespace Sys2Proof.Claims

/-- Every byte of memory reads as before. -/
def SameBytes (s t : State) : Prop := ∀ a, readByte t.mem a = readByte s.mem a

/-- Every byte of memory outside the `len` bytes from `base` reads as before. -/
def SameBytesOutside (base len : Nat) (s t : State) : Prop :=
  ∀ a, a < base ∨ base + len ≤ a → readByte t.mem a = readByte s.mem a

/-- Frame: nothing but pc may have changed. -/
def OnlyPc (s t : State) : Prop := t = { s with pc := t.pc } ∧ SameBytes s t

/-- Frame: nothing but the general registers has changed, and pc is at the next instruction. -/
def OnlyRegsNext (s t : State) : Prop := t = { s with V := t.V, pc := s.pc + 2 } ∧ SameBytes s t

/-- Frame: nothing but I has changed, and pc is at the next instruction. -/
def OnlyIndexNext (s t : State) : Prop := t = { s with I := t.I, pc := s.pc + 2 } ∧ SameBytes s t

/-- Frame: nothing but the `len` bytes at I has changed, and pc is at the next instruction. -/
def OnlyBytesAtINext (len : Nat) (s t : State) : Prop :=
  t = { s with mem := t.mem, pc := s.pc + 2 } ∧ SameBytesOutside s.I.toNat len s t

/-- Every general register but those named is as before. -/
def SameRegsBut (rs : List Nibble) (s t : State) : Prop := ∀ r, r ∉ rs → readV t r = readV s r

/-- The state a fatal error leaves (60_exceptions.md R245, R249): the record and FAULTED, nothing else. -/
def Faulted (cause : FaultCause) (addr : Nat) (word : Word) (s : State) : State :=
  { s with fsm := .faulted,
           fault := { cause := cause, pc := s.pc, sp := s.sp, addr := BitVec.ofNat 17 addr, word := word } }

/-- The state a running step executes in (R104): the event taken off, the inputs sampled, no strobe asserted yet. -/
def Sampled (keypad : Word) (rnd : Byte) (rest : List Event) (s : State) : State :=
  { s with pending := rest, keys := keypad, rndS := rnd, frame := false, decodeFail := false }

/-- RUNNING or WAITING_FOR_KEY, the states a step is taken in (R103). -/
def Live (s : State) : Prop := s.fsm = .running ∨ s.fsm = .waitingForKey

/-- The big-endian word at pc (20_memory.md R55). -/
def WordAtPc (s : State) : Word := readByte s.mem s.pc.toNat ++ readByte s.mem (s.pc.toNat + 1)

/-- The next event is a Step, scheduled or not. -/
def StepComes (s : State) : Prop := s.pending = [] ∨ ∃ k r st rest, s.pending = .step k r st :: rest

/-- The fatal error of an instruction and its fault_addr, by the table of R241; none where the instruction completes. -/
def faultOf (i : Instr) (s : State) : Option (FaultCause × Nat) :=
  match i with
  | .call _ => if s.sp.val = 16 then some (.stackOverflow, 0) else none
  | .ret _ => if s.sp.val = 0 then some (.stackUnderflow, 0) else none
  | .drw _ _ n => if 0 < n.toNat ∧ 0xFFF < s.I.toNat + n.toNat - 1 then some (.dataOob, max s.I.toNat 0x1000) else none
  | .ldB _ => if 0xFFF < s.I.toNat + 2 then some (.dataOob, max s.I.toNat 0x1000) else none
  | .ldIVx x | .ldVxI x => if 0xFFF < s.I.toNat + x.toNat then some (.dataOob, max s.I.toNat 0x1000) else none
  | .skp x | .sknp x => if 0x0F < (readV s x).toNat then some (.keyIndexOob, (readV s x).toNat) else none
  | .cls _ | .jp _ | .seImm _ _ | .sneImm _ _ | .seReg _ _ _ | .ldX _ _ | .addImm _ _ | .ldReg _ _ | .orReg _ _ | .andReg _ _
  | .xorReg _ _ | .addReg _ _ | .sub _ _ | .shr _ _ | .subn _ _ | .shl _ _ | .sneReg _ _ _ | .ldI _ | .jpV0 _ | .rnd _ _
  | .ldVxDt _ | .ldVxK _ | .ldDtVx _ | .ldStVx _ | .addI _ | .ldF _ => none

/-- The next pc of an instruction that completes, by the table of R110. -/
def nextPcOf (i : Instr) (s : State) : Word :=
  match i with
  | .jp nnn | .call nnn => BitVec.ofNat 16 nnn.toNat
  | .jpV0 nnn => BitVec.ofNat 16 (nnn.toNat + (readV s 0).toNat)
  | .ret _ => if h : s.sp.val - 1 < 16 then s.stack[s.sp.val - 1] else 0
  | .seImm x kk => if readV s x = kk then s.pc + 4 else s.pc + 2
  | .sneImm x kk => if readV s x = kk then s.pc + 2 else s.pc + 4
  | .seReg x y _ => if readV s x = readV s y then s.pc + 4 else s.pc + 2
  | .sneReg x y _ => if readV s x = readV s y then s.pc + 2 else s.pc + 4
  | .skp x => if s.keys.getLsbD (readV s x).toNat then s.pc + 4 else s.pc + 2
  | .sknp x => if s.keys.getLsbD (readV s x).toNat then s.pc + 2 else s.pc + 4
  | .ldVxK _ => if s.keys = 0 then s.pc else s.pc + 2
  | .cls _ | .ldX _ _ | .addImm _ _ | .ldReg _ _ | .orReg _ _ | .andReg _ _ | .xorReg _ _ | .addReg _ _ | .sub _ _ | .shr _ _
  | .subn _ _ | .shl _ _ | .ldI _ | .rnd _ _ | .drw _ _ _ | .ldVxDt _ | .ldDtVx _ | .ldStVx _ | .addI _ | .ldF _ | .ldB _
  | .ldIVx _ | .ldVxI _ => s.pc + 2

/-- Some set bit of the n-row sprite at I, drawn at (V[x], V[y]) with the wrap of R203, falls on the pixel (px, py). -/
def SpriteHits (x y n : Nibble) (s : State) (px : Fin 64) (py : Fin 32) : Prop :=
  ∃ r, r < n.toNat ∧ ∃ c, c < 8 ∧ (readByte s.mem (s.I.toNat + r)).getLsbD (7 - c) = true ∧
    ((readV s x).toNat + c) % 64 = px.val ∧ ((readV s y).toNat + r) % 32 = py.val

/-- The word fails to decode. -/
def Fails (w : Word) : Prop := decode w = .failure w

end Sys2Proof.Claims

open Sys2Proof.Claims

/-! ### Encoding -/

/-- Words of the spec's own examples decode to the instruction they stand for: the four words of 30_encoding.md and words of the programs of
95_test_vectors.md, one of each family. -/
def Obligations.SpecExampleWordsDecode : Prop :=
  decode 0x6005 = .instr (.ldX 0 5) ∧ decode 0xA200 = .instr (.ldI 0x200) ∧ decode 0x1200 = .instr (.jp 0x200) ∧
  decode 0x00EE = .instr (.ret 0) ∧ decode 0x00E0 = .instr (.cls 0) ∧ decode 0x8AB5 = .instr (.sub 0xA 0xB) ∧
  decode 0xD125 = .instr (.drw 1 2 5) ∧ decode 0xF20A = .instr (.ldVxK 2) ∧ decode 0xFA33 = .instr (.ldB 0xA) ∧
  decode 0xC30F = .instr (.rnd 3 0x0F) ∧ decode 0x0123 = .failure 0x0123

/-- Decoding the word, and the bytes, of any instruction gives that instruction back, at every value of every operand (R74, R80). -/
def Obligations.DecodeOfEncodeIsTheInstruction : Prop :=
  ∀ i : Instr, decode (encode i) = .instr i ∧ ∀ rest, decodeBytes (encodeBytes i ++ rest) = .instr i rest

/-- A word that decodes is the word of the instruction it decodes to: no bit of it is lost, the ignored ones included. -/
def Obligations.DecodedWordIsItsEncoding : Prop := ∀ w i, decode w = .instr i → encode i = w

/-- The opcode map (R74): the 34 rows of mask and match select exactly the words that decode, each decoded word by its own row, and no two rows
match one word. -/
def Obligations.OpcodeRowsSelectTheDecodedWords : Prop :=
  opcodeRows.length = 34 ∧
  (∀ w, (∃ i, decode w = .instr i) ↔ ∃ r ∈ opcodeRows, w &&& r.mask = r.value) ∧
  (∀ w i, decode w = .instr i → w &&& i.row.mask = i.row.value) ∧
  (∀ w, ∀ r ∈ opcodeRows, ∀ r' ∈ opcodeRows, w &&& r.mask = r.value → w &&& r'.mask = r'.value → r = r')

/-- Secondary dispatch (R75 to R79): what each word of the families 0x0, 0x8, 0x5, 0x9, 0xE and 0xF decodes to. -/
def Obligations.SecondaryDispatchOfFamilies : Prop :=
  (∀ (z : Nibble) (kk : Byte), decode (0x0#4 ++ z ++ kk) =
    if kk = 0xE0 then .instr (.cls z) else if kk = 0xEE then .instr (.ret z) else .failure (0x0#4 ++ z ++ kk)) ∧
  (∀ x y : Nibble,
    decode (0x8#4 ++ x ++ y ++ 0x0#4) = .instr (.ldReg x y) ∧ decode (0x8#4 ++ x ++ y ++ 0x1#4) = .instr (.orReg x y) ∧
    decode (0x8#4 ++ x ++ y ++ 0x2#4) = .instr (.andReg x y) ∧ decode (0x8#4 ++ x ++ y ++ 0x3#4) = .instr (.xorReg x y) ∧
    decode (0x8#4 ++ x ++ y ++ 0x4#4) = .instr (.addReg x y) ∧ decode (0x8#4 ++ x ++ y ++ 0x5#4) = .instr (.sub x y) ∧
    decode (0x8#4 ++ x ++ y ++ 0x6#4) = .instr (.shr x y) ∧ decode (0x8#4 ++ x ++ y ++ 0x7#4) = .instr (.subn x y) ∧
    decode (0x8#4 ++ x ++ y ++ 0xE#4) = .instr (.shl x y) ∧
    ∀ n ∈ [0x8#4, 0x9#4, 0xA#4, 0xB#4, 0xC#4, 0xD#4, 0xF#4],
      decode (0x8#4 ++ x ++ y ++ n) = .failure (0x8#4 ++ x ++ y ++ n)) ∧
  (∀ x y n : Nibble, decode (0x5#4 ++ x ++ y ++ n) = .instr (.seReg x y n) ∧
    decode (0x9#4 ++ x ++ y ++ n) = .instr (.sneReg x y n)) ∧
  (∀ (x : Nibble) (kk : Byte), decode (0xE#4 ++ x ++ kk) =
    if kk = 0x9E then .instr (.skp x) else if kk = 0xA1 then .instr (.sknp x) else .failure (0xE#4 ++ x ++ kk)) ∧
  (∀ (x : Nibble) (kk : Byte), decode (0xF#4 ++ x ++ kk) =
    if kk = 0x07 then .instr (.ldVxDt x) else if kk = 0x0A then .instr (.ldVxK x) else if kk = 0x15 then .instr (.ldDtVx x)
    else if kk = 0x18 then .instr (.ldStVx x) else if kk = 0x1E then .instr (.addI x) else if kk = 0x29 then .instr (.ldF x)
    else if kk = 0x33 then .instr (.ldB x) else if kk = 0x55 then .instr (.ldIVx x) else if kk = 0x65 then .instr (.ldVxI x)
    else .failure (0xF#4 ++ x ++ kk))

/-- The decode-failure set, counted (R81): 254 low bytes fail in the families 0x0 and 0xE and 247 in 0xF, each with 16 values of w[11:8]; 7 low
nibbles fail in 0x8, with 256 values of w[11:4]; no word of another family fails. -/
def Obligations.DecodeFailuresCountedByFamily : Prop :=
  (∀ x : Nibble,
    (∃ l : List Byte, l.Nodup ∧ l.length = 254 ∧ ∀ kk, kk ∈ l ↔ Fails (0x0#4 ++ x ++ kk)) ∧
    (∃ l : List Byte, l.Nodup ∧ l.length = 254 ∧ ∀ kk, kk ∈ l ↔ Fails (0xE#4 ++ x ++ kk)) ∧
    (∃ l : List Byte, l.Nodup ∧ l.length = 247 ∧ ∀ kk, kk ∈ l ↔ Fails (0xF#4 ++ x ++ kk))) ∧
  (∀ x y : Nibble, ∃ l : List Nibble, l.Nodup ∧ l.length = 7 ∧ ∀ n, n ∈ l ↔ Fails (0x8#4 ++ x ++ y ++ n)) ∧
  (∀ w, opField w ∉ [0x0#4, 0x8#4, 0xE#4, 0xF#4] → ¬ Fails w) ∧
  16 * 254 + 256 * 7 + 16 * 254 + 16 * 247 = 13872

/-! ### The step around an instruction -/

/-- A step runs the decoded instruction: when the word at pc decodes to `i`, a Step without stop is `exec i` on the sampled state, and then the
`frame` strobe of R111. For an unscheduled step too, whose inputs are the model's own (logs 2 and 3). -/
def Obligations.StepRunsTheDecodedInstruction : Prop :=
  (∀ s k r rest i t, s.pending = .step k r false :: rest → Live s → s.pc.toNat ≤ 0xFFE → decode (WordAtPc s) = .instr i →
    exec i (Sampled k r rest s) = .next t → step s = .next { t with frame := t.fsm.live }) ∧
  (∀ s i t, s.pending = [] → Live s → s.pc.toNat ≤ 0xFFE → decode (WordAtPc s) = .instr i →
    exec i (Sampled 0 (Config.freeRnd s.draws) [] { s with draws := s.draws + 1 }) = .next t →
    step s = .next { t with frame := t.fsm.live })

/-- When a step is taken, and the stop signal (R103). That a stop during a wait leaves `wait_key` set, against R31, is the model's reading of R103
(log 10). -/
def Obligations.StepTakenOnlyWhenLiveAndStopEndsIt : Prop :=
  (∀ s k r st rest, s.pending = .step k r st :: rest → ¬ Live s →
    step s = .next { s with pending := rest, frame := false, decodeFail := false }) ∧
  (∀ s k r rest, s.pending = .step k r true :: rest → Live s →
    step s = .next { s with pending := rest, frame := false, decodeFail := false, fsm := .stopped })

/-- Fetch (R105): the big-endian word at pc, or FETCH_OOB with the first address out of range and nothing else changed. That the step's samples
stay in `keys` and `rnd_s` is the model's reading (log 9). -/
def Obligations.FetchReadsTheWordOrFaults : Prop :=
  (∀ s, s.pc.toNat ≤ 0xFFE → fetch s = .word (WordAtPc s)) ∧
  (∀ s k r rest, s.pending = .step k r false :: rest → Live s → s.pc.toNat = 0xFFF →
    step s = .next (Faulted .fetchOob 0x1000 0 (Sampled k r rest s))) ∧
  (∀ s k r rest, s.pending = .step k r false :: rest → Live s → 0xFFF < s.pc.toNat →
    step s = .next (Faulted .fetchOob s.pc.toNat 0 (Sampled k r rest s)))

/-- Decode failure under Halt (R247). That the step's samples stay is the model's reading (log 9). -/
def Obligations.DecodeFailureHaltsUnderHalt : Prop :=
  ∀ s k r rest w, s.pending = .step k r false :: rest → Live s → s.pc.toNat ≤ 0xFFE → decode (WordAtPc s) = .failure w →
    s.params.decodeFailPolicy = .halt → w = WordAtPc s ∧
    step s = .next { Sampled k r rest s with fsm := .halted, report := { badWord := w, badPc := s.pc }, decodeFail := true }

/-- Decode failure under Skip (R248): pc + 2, RUNNING, reported, with `frame`. That the step's samples stay is the model's reading (log 9). -/
def Obligations.DecodeFailureSkipsUnderSkip : Prop :=
  ∀ s k r rest w, s.pending = .step k r false :: rest → s.fsm = .running → s.pc.toNat ≤ 0xFFE →
    decode (WordAtPc s) = .failure w → s.params.decodeFailPolicy = .skip → w = WordAtPc s ∧
    step s = .next { Sampled k r rest s with
      pc := s.pc + 2, report := { badWord := w, badPc := s.pc }, decodeFail := true, frame := true }

/-- `frame` is asserted by exactly the Step events that end in RUNNING or WAITING_FOR_KEY, and by no Tick (R111, R101). -/
def Obligations.FrameStrobeOfLiveSteps : Prop :=
  (∀ s t, step s = .next t → StepComes s → (t.frame = true ↔ Live t)) ∧
  (∀ s t rest, step s = .next t → s.pending = .tick :: rest → t.frame = false)

/-- Timer tick (R115): each nonzero timer loses one, nothing else changes; no effect in a terminal state. -/
def Obligations.TickDecrementsNonzeroTimers : Prop :=
  ∀ s rest, s.pending = .tick :: rest → ∃ t, step s = .next t ∧
    t = { s with DT := t.DT, ST := t.ST, pending := rest, frame := false, decodeFail := false } ∧ SameBytes s t ∧
    (Live s → t.DT.toNat = s.DT.toNat - 1 ∧ t.ST.toNat = s.ST.toNat - 1) ∧ (¬ Live s → t.DT = s.DT ∧ t.ST = s.ST)

/-- A tick presented with a step is taken after it (R116): LD Vx,DT reads the timer before the decrement, LD DT,Vx and LD ST,Vx write a value that
the tick then decrements, and after any Step, whatever it did, the tick acts on the state that Step left. -/
def Obligations.TickComesAfterItsStep : Prop :=
  (∀ s k r rest x, s.pending = .step k r false :: .tick :: rest → Live s → s.pc.toNat ≤ 0xFFE →
    decode (WordAtPc s) = .instr (.ldVxDt x) →
    ∃ t u, step s = .next t ∧ step t = .next u ∧ readV u x = s.DT ∧ u.DT.toNat = s.DT.toNat - 1) ∧
  (∀ s k r rest x, s.pending = .step k r false :: .tick :: rest → Live s → s.pc.toNat ≤ 0xFFE →
    decode (WordAtPc s) = .instr (.ldDtVx x) →
    ∃ t u, step s = .next t ∧ step t = .next u ∧ t.DT = readV s x ∧ u.DT.toNat = (readV s x).toNat - 1) ∧
  (∀ s k r rest x, s.pending = .step k r false :: .tick :: rest → Live s → s.pc.toNat ≤ 0xFFE →
    decode (WordAtPc s) = .instr (.ldStVx x) →
    ∃ t u, step s = .next t ∧ step t = .next u ∧ t.ST = readV s x ∧ u.ST.toNat = (readV s x).toNat - 1) ∧
  (∀ s k r stop rest, s.pending = .step k r stop :: .tick :: rest →
    ∃ t u, step s = .next t ∧ step t = .next u ∧
      u = { t with DT := u.DT, ST := u.ST, pending := rest, frame := false, decodeFail := false } ∧
      (Live t → u.DT.toNat = t.DT.toNat - 1 ∧ u.ST.toNat = t.ST.toNat - 1) ∧ (¬ Live t → u.DT = t.DT ∧ u.ST = t.ST))

/-! ### Reset -/

/-- Reset in any state (R37, R270, R271, R272, R275): every piece of state at its reset value, the font and the image in memory. -/
def Obligations.ResetPutsEveryStateAtItsValue : Prop :=
  ∀ s image rest, s.pending = .reset image :: rest → image.length ≤ 3584 → ∃ t, step s = .next t ∧
    (∀ x, readV t x = 0) ∧ t.I = 0 ∧ t.pc = 0x200 ∧ (∀ k : Fin 16, t.stack[k] = 0) ∧ t.sp = 0 ∧ t.DT = 0 ∧ t.ST = 0 ∧
    (∀ px py, pixel t.fb px py = false) ∧ t.keys = 0 ∧ t.waitKey = false ∧ t.waitReg = 0 ∧ t.fsm = .running ∧
    t.fault = { cause := .none, pc := 0, sp := 0, addr := 0, word := 0 } ∧ t.report = { badWord := 0, badPc := 0 } ∧
    (∀ a, (h : a < 80) → readByte t.mem a = s.params.fontTable[a]) ∧
    (∀ j, (h : j < image.length) → readByte t.mem (0x200 + j) = image[j]) ∧
    (∀ a, 80 ≤ a → a < 0x200 ∨ 0x200 + image.length ≤ a → readByte t.mem a = 0)

/-- An image longer than 3584 bytes (R254): FAULTED with IMAGE_TOO_LARGE and nothing of the image loaded; every other piece of state is at its
reset value (R37, R270, R272). -/
def Obligations.ImageTooLargeFaultsAtReset : Prop :=
  ∀ s image rest, s.pending = .reset image :: rest → 3584 < image.length → ∃ t, step s = .next t ∧ t.fsm = .faulted ∧
    t.fault = { cause := .imageTooLarge, pc := 0x200, sp := 0, addr := 0x1000, word := 0 } ∧
    (∀ a, (h : a < 80) → readByte t.mem a = s.params.fontTable[a]) ∧ (∀ a, 80 ≤ a → readByte t.mem a = 0) ∧
    (∀ x, readV t x = 0) ∧ t.I = 0 ∧ t.pc = 0x200 ∧ (∀ k : Fin 16, t.stack[k] = 0) ∧ t.sp = 0 ∧ t.DT = 0 ∧ t.ST = 0 ∧
    (∀ px py, pixel t.fb px py = false) ∧ t.keys = 0 ∧ t.waitKey = false ∧ t.waitReg = 0 ∧
    t.report = { badWord := 0, badPc := 0 }

/-! ### Faults -/

/-- Faults are precise (R245): a step that raises a fault leaves registers, I, pc, stack, sp, timers, memory, fb, wait_key and wait_reg. -/
def Obligations.FaultingStepIsPrecise : Prop :=
  ∀ s t, step s = .next t → StepComes s → s.fsm ≠ .faulted → t.fsm = .faulted →
    t.V = s.V ∧ t.I = s.I ∧ t.pc = s.pc ∧ t.stack = s.stack ∧ t.sp = s.sp ∧ t.DT = s.DT ∧ t.ST = s.ST ∧ t.mem = s.mem ∧
    t.fb = s.fb ∧ t.waitKey = s.waitKey ∧ t.waitReg = s.waitReg ∧ t.fault.pc = s.pc ∧ t.fault.sp = s.sp

/-- Which instruction raises which fault, with which fault_addr and fault_word (R241, R251), and that it completes otherwise. -/
def Obligations.InstructionFaultsByTheTable : Prop :=
  (∀ i s c a, faultOf i s = some (c, a) → exec i s = .next (Faulted c a (encode i) s)) ∧
  (∀ i s, faultOf i s = none → ∃ t, exec i s = .next t ∧ t.fault = s.fault ∧ (s.fsm ≠ .faulted → t.fsm ≠ .faulted))

/-- HALTED, FAULTED and STOPPED are left only by Reset, and no step and no tick changes core state in them (R32). The model's own `pending` and
`draws` go on (logs 1 and 3). -/
def Obligations.TerminalStatesAreLeftOnlyByReset : Prop :=
  ∀ s t, step s = .next t → ¬ Live s → (∀ image rest, s.pending ≠ .reset image :: rest) →
    t = { s with pending := t.pending, draws := t.draws, frame := false, decodeFail := false }

/-! ### Control flow -/

/-- JP nnn and JP V0,nnn (R133, R139). -/
def Obligations.JumpsSetPcToTheTarget : Prop :=
  (∀ nnn s, ∃ t, exec (.jp nnn) s = .next t ∧ t.pc.toNat = nnn.toNat ∧ OnlyPc s t) ∧
  (∀ nnn s, ∃ t, exec (.jpV0 nnn) s = .next t ∧ t.pc.toNat = nnn.toNat + (readV s 0).toNat ∧ OnlyPc s t)

/-- The register and immediate skips (R135, R136, R137, R138). -/
def Obligations.SkipsFollowTheirCondition : Prop :=
  (∀ x kk s, ∃ t, exec (.seImm x kk) s = .next t ∧ OnlyPc s t ∧
    (readV s x = kk → t.pc = s.pc + 4) ∧ (readV s x ≠ kk → t.pc = s.pc + 2)) ∧
  (∀ x kk s, ∃ t, exec (.sneImm x kk) s = .next t ∧ OnlyPc s t ∧
    (readV s x ≠ kk → t.pc = s.pc + 4) ∧ (readV s x = kk → t.pc = s.pc + 2)) ∧
  (∀ x y n s, ∃ t, exec (.seReg x y n) s = .next t ∧ OnlyPc s t ∧
    (readV s x = readV s y → t.pc = s.pc + 4) ∧ (readV s x ≠ readV s y → t.pc = s.pc + 2)) ∧
  (∀ x y n s, ∃ t, exec (.sneReg x y n) s = .next t ∧ OnlyPc s t ∧
    (readV s x ≠ readV s y → t.pc = s.pc + 4) ∧ (readV s x = readV s y → t.pc = s.pc + 2))

/-- CALL (R134, R130, R242): pushes pc + 2 and jumps; at depth 16 it faults and nothing else changes. -/
def Obligations.CallPushesTheReturnAddress : Prop :=
  (∀ nnn s, (h : s.sp.val < 16) → ∃ t, exec (.call nnn) s = .next t ∧ t.pc.toNat = nnn.toNat ∧ t.sp.val = s.sp.val + 1 ∧
    t.stack[s.sp.val] = s.pc + 2 ∧ (∀ k, (hk : k < 16) → k ≠ s.sp.val → t.stack[k] = s.stack[k]) ∧
    t = { s with stack := t.stack, sp := t.sp, pc := t.pc } ∧ SameBytes s t) ∧
  (∀ nnn s, s.sp = 16 → exec (.call nnn) s = .next (Faulted .stackOverflow 0 (encode (.call nnn)) s))

/-- RET (R132, R131, R243): pc is the popped entry exactly, the entry stays; at depth 0 it faults and nothing else changes. -/
def Obligations.RetPopsTheReturnAddress : Prop :=
  (∀ z s, (h : 0 < s.sp.val) → ∃ t, exec (.ret z) s = .next t ∧ t.pc = s.stack[s.sp.val - 1] ∧ t.sp.val = s.sp.val - 1 ∧
    t = { s with sp := t.sp, pc := t.pc } ∧ SameBytes s t) ∧
  (∀ z s, s.sp = 0 → exec (.ret z) s = .next (Faulted .stackUnderflow 0 (encode (.ret z)) s))

/-- A RET undoes the CALL before it: execution resumes after the CALL, with the stack depth and every live entry as before (R132, R134). -/
def Obligations.RetAfterCallResumesAfterTheCall : Prop :=
  ∀ nnn z s t u, s.sp.val < 16 → exec (.call nnn) s = .next t → exec (.ret z) t = .next u →
    u = { s with stack := u.stack, pc := s.pc + 2 } ∧ ∀ k, (hk : k < 16) → k < s.sp.val → u.stack[k] = s.stack[k]

/-- The next pc of every instruction that completes (R110). -/
def Obligations.NextPcFollowsTheTable : Prop :=
  ∀ i s t, exec i s = .next t → faultOf i s = none → t.pc = nextPcOf i s

/-! ### Register arithmetic -/

/-- LD Vx,kk, ADD Vx,kk and LD Vx,Vy (R151, R152, R153): the result in Vx, no flag. -/
def Obligations.LoadsAndImmediateAddWriteVxOnly : Prop :=
  (∀ x kk s, ∃ t, exec (.ldX x kk) s = .next t ∧ readV t x = kk ∧ SameRegsBut [x] s t ∧ OnlyRegsNext s t) ∧
  (∀ x kk s, ∃ t, exec (.addImm x kk) s = .next t ∧ (readV t x).toNat = ((readV s x).toNat + kk.toNat) % 256 ∧
    SameRegsBut [x] s t ∧ OnlyRegsNext s t) ∧
  (∀ x y s, ∃ t, exec (.ldReg x y) s = .next t ∧ readV t x = readV s y ∧ SameRegsBut [x] s t ∧ OnlyRegsNext s t)

/-- OR, AND and XOR (R154, R155, R156): bit by bit, and VF is not reset. -/
def Obligations.LogicWritesVxOnly : Prop :=
  (∀ x y s, ∃ t, exec (.orReg x y) s = .next t ∧ SameRegsBut [x] s t ∧ OnlyRegsNext s t ∧
    ∀ b, (readV t x).getLsbD b = ((readV s x).getLsbD b || (readV s y).getLsbD b)) ∧
  (∀ x y s, ∃ t, exec (.andReg x y) s = .next t ∧ SameRegsBut [x] s t ∧ OnlyRegsNext s t ∧
    ∀ b, (readV t x).getLsbD b = ((readV s x).getLsbD b && (readV s y).getLsbD b)) ∧
  (∀ x y s, ∃ t, exec (.xorReg x y) s = .next t ∧ SameRegsBut [x] s t ∧ OnlyRegsNext s t ∧
    ∀ b, (readV t x).getLsbD b = ((readV s x).getLsbD b ^^ (readV s y).getLsbD b))

/-- ADD Vx,Vy (R157): the wrapped sum, and VF is the carry, written last. -/
def Obligations.AddWritesSumAndCarry : Prop :=
  ∀ x y s, ∃ t, exec (.addReg x y) s = .next t ∧ SameRegsBut [x, 0xF] s t ∧ OnlyRegsNext s t ∧
    (x ≠ 0xF → (readV t x).toNat = ((readV s x).toNat + (readV s y).toNat) % 256) ∧
    (255 < (readV s x).toNat + (readV s y).toNat → readV t 0xF = 1) ∧
    ((readV s x).toNat + (readV s y).toNat ≤ 255 → readV t 0xF = 0)

/-- SUB and SUBN (R158, R160): the wrapped difference, and VF is NOT borrow, written last. -/
def Obligations.SubtractionsWriteDifferenceAndNotBorrow : Prop :=
  (∀ x y s, ∃ t, exec (.sub x y) s = .next t ∧ SameRegsBut [x, 0xF] s t ∧ OnlyRegsNext s t ∧
    (x ≠ 0xF → (readV t x).toNat = ((readV s x).toNat + 256 - (readV s y).toNat) % 256) ∧
    ((readV s y).toNat ≤ (readV s x).toNat → readV t 0xF = 1) ∧ ((readV s x).toNat < (readV s y).toNat → readV t 0xF = 0)) ∧
  (∀ x y s, ∃ t, exec (.subn x y) s = .next t ∧ SameRegsBut [x, 0xF] s t ∧ OnlyRegsNext s t ∧
    (x ≠ 0xF → (readV t x).toNat = ((readV s y).toNat + 256 - (readV s x).toNat) % 256) ∧
    ((readV s x).toNat ≤ (readV s y).toNat → readV t 0xF = 1) ∧ ((readV s y).toNat < (readV s x).toNat → readV t 0xF = 0))

/-- SHR and SHL (R159, R161): VF is the bit shifted out, written first; the result, from Vx alone, last. -/
def Obligations.ShiftsWriteOutgoingBitThenResult : Prop :=
  (∀ x y s, ∃ t, exec (.shr x y) s = .next t ∧ SameRegsBut [x, 0xF] s t ∧ OnlyRegsNext s t ∧
    (readV t x).toNat = (readV s x).toNat / 2 ∧ (x ≠ 0xF → (readV t 0xF).toNat = (readV s x).toNat % 2)) ∧
  (∀ x y s, ∃ t, exec (.shl x y) s = .next t ∧ SameRegsBut [x, 0xF] s t ∧ OnlyRegsNext s t ∧
    (readV t x).toNat = (readV s x).toNat * 2 % 256 ∧ (x ≠ 0xF → (readV t 0xF).toNat = (readV s x).toNat / 128))

/-- The arithmetic laws (R162), for x other than F. -/
def Obligations.ArithmeticLawsOfResultAndFlag : Prop :=
  ∀ x y s, x ≠ 0xF →
    (∀ t, exec (.addReg x y) s = .next t →
      (readV t 0xF).toNat * 256 + (readV t x).toNat = (readV s x).toNat + (readV s y).toNat) ∧
    (∀ t, exec (.sub x y) s = .next t →
      (readV t x).toNat + (readV s y).toNat + 256 * (readV t 0xF).toNat = 256 + (readV s x).toNat) ∧
    (∀ t, exec (.subn x y) s = .next t →
      (readV t x).toNat + (readV s x).toNat + 256 * (readV t 0xF).toNat = 256 + (readV s y).toNat) ∧
    (∀ t, exec (.shr x y) s = .next t → 2 * (readV t x).toNat + (readV t 0xF).toNat = (readV s x).toNat) ∧
    (∀ t, exec (.shl x y) s = .next t → (readV t x).toNat + 256 * (readV t 0xF).toNat = 2 * (readV s x).toNat)

/-! ### Index register and memory -/

/-- LD I,nnn, ADD I,Vx and LD F,Vx (R180, R181, R182): I takes the value, VF and the rest stay. -/
def Obligations.IndexInstructionsWriteIOnly : Prop :=
  (∀ nnn s, ∃ t, exec (.ldI nnn) s = .next t ∧ t.I.toNat = nnn.toNat ∧ OnlyIndexNext s t) ∧
  (∀ x s, ∃ t, exec (.addI x) s = .next t ∧ t.I.toNat = (s.I.toNat + (readV s x).toNat) % 65536 ∧ OnlyIndexNext s t) ∧
  (∀ x s, ∃ t, exec (.ldF x) s = .next t ∧ t.I.toNat = (readV s x).toNat * 5 ∧ OnlyIndexNext s t)

/-- LD B,Vx (R183): three decimal digits at I, I+1, I+2, or DATA_OOB with no byte written. -/
def Obligations.BcdStoresThreeDigits : Prop :=
  (∀ x s, s.I.toNat + 2 ≤ 0xFFF → ∃ t, exec (.ldB x) s = .next t ∧ OnlyBytesAtINext 3 s t ∧
    (readByte t.mem s.I.toNat).toNat = (readV s x).toNat / 100 ∧
    (readByte t.mem (s.I.toNat + 1)).toNat = (readV s x).toNat / 10 % 10 ∧
    (readByte t.mem (s.I.toNat + 2)).toNat = (readV s x).toNat % 10) ∧
  (∀ x s, 0xFFF < s.I.toNat + 2 → exec (.ldB x) s = .next (Faulted .dataOob (max s.I.toNat 0x1000) (encode (.ldB x)) s))

/-- LD [I],Vx (R184): V0..Vx to I..I+x, I unchanged, or DATA_OOB with no byte written. -/
def Obligations.RegisterDumpStoresV0ToVx : Prop :=
  (∀ x s, s.I.toNat + x.toNat ≤ 0xFFF → ∃ t, exec (.ldIVx x) s = .next t ∧ OnlyBytesAtINext (x.toNat + 1) s t ∧
    ∀ r : Nibble, r.toNat ≤ x.toNat → readByte t.mem (s.I.toNat + r.toNat) = readV s r) ∧
  (∀ x s, 0xFFF < s.I.toNat + x.toNat →
    exec (.ldIVx x) s = .next (Faulted .dataOob (max s.I.toNat 0x1000) (encode (.ldIVx x)) s))

/-- LD Vx,[I] (R185): I..I+x to V0..Vx, I unchanged, or DATA_OOB with no register written. -/
def Obligations.RegisterLoadReadsV0ToVx : Prop :=
  (∀ x s, s.I.toNat + x.toNat ≤ 0xFFF → ∃ t, exec (.ldVxI x) s = .next t ∧ OnlyRegsNext s t ∧
    (∀ r : Nibble, r.toNat ≤ x.toNat → readV t r = readByte s.mem (s.I.toNat + r.toNat)) ∧
    (∀ r : Nibble, x.toNat < r.toNat → readV t r = readV s r)) ∧
  (∀ x s, 0xFFF < s.I.toNat + x.toNat →
    exec (.ldVxI x) s = .next (Faulted .dataOob (max s.I.toNat 0x1000) (encode (.ldVxI x)) s))

/-- A register load gets back what a dump at the same I stored, whatever the registers hold by then (R184, R185). -/
def Obligations.LoadAfterDumpRestoresRegisters : Prop :=
  ∀ x s t u v, s.I.toNat + x.toNat ≤ 0xFFF → exec (.ldIVx x) s = .next t → u.mem = t.mem → u.I = s.I →
    exec (.ldVxI x) u = .next v → ∀ r : Nibble, r.toNat ≤ x.toNat → readV v r = readV s r

/-- Fetch is coherent with stores (R61): bytes a dump wrote are the word a later fetch at their address reads. -/
def Obligations.DumpedBytesAreFetched : Prop :=
  ∀ x s t u (r r' : Nibble), exec (.ldIVx x) s = .next t → s.I.toNat + x.toNat ≤ 0xFFF → u.mem = t.mem →
    r'.toNat = r.toNat + 1 → r'.toNat ≤ x.toNat → u.pc.toNat = s.I.toNat + r.toNat →
    fetch u = .word (readV s r ++ readV s r')

/-- Only LD B,Vx and LD [I],Vx write memory (R51). -/
def Obligations.OnlyBcdAndDumpWriteMemory : Prop :=
  ∀ i s t a, exec i s = .next t → readByte t.mem a ≠ readByte s.mem a → ∃ x, i = .ldB x ∨ i = .ldIVx x

/-! ### Display -/

/-- CLS (R200). -/
def Obligations.ClsClearsEveryPixel : Prop :=
  ∀ z s, ∃ t, exec (.cls z) s = .next t ∧ (∀ px py, pixel t.fb px py = false) ∧
    t = { s with fb := t.fb, pc := s.pc + 2 } ∧ SameBytes s t

/-- DRW (R202, R203, R204): every pixel a set sprite bit falls on is toggled and no other, VF is the collision, all with V[x] and V[y] from
before the draw; or DATA_OOB with nothing changed. -/
def Obligations.DrwTogglesHitPixelsAndFlagsCollision : Prop :=
  (∀ x y n s, n.toNat = 0 ∨ s.I.toNat + n.toNat - 1 ≤ 0xFFF → ∃ t, exec (.drw x y n) s = .next t ∧
    (∀ px py, (pixel t.fb px py = true) ↔ ¬ (pixel s.fb px py = true ↔ SpriteHits x y n s px py)) ∧
    ((∃ px py, SpriteHits x y n s px py ∧ pixel s.fb px py = true) → readV t 0xF = 1) ∧
    ((¬ ∃ px py, SpriteHits x y n s px py ∧ pixel s.fb px py = true) → readV t 0xF = 0) ∧
    SameRegsBut [0xF] s t ∧ t = { s with V := t.V, fb := t.fb, pc := s.pc + 2 } ∧ SameBytes s t) ∧
  (∀ x y n s, 0 < n.toNat → 0xFFF < s.I.toNat + n.toNat - 1 →
    exec (.drw x y n) s = .next (Faulted .dataOob (max s.I.toNat 0x1000) (encode (.drw x y n)) s))

/-- DRW with n = 0 (R205): no pixel, no memory, no fault whatever I holds, and VF is 0. -/
def Obligations.EmptyDrawOnlyClearsVf : Prop :=
  ∀ x y s, ∃ t, exec (.drw x y 0) s = .next t ∧ readV t 0xF = 0 ∧ t.fb = s.fb ∧ SameRegsBut [0xF] s t ∧ OnlyRegsNext s t

/-- The XOR law (R206): the same draw twice, with the same operands and sprite bytes, restores every pixel; the second VF tells of a set sprite
bit on a pixel that was 0 before the first draw. -/
def Obligations.DrawingTwiceRestoresThePicture : Prop :=
  ∀ x y n s t u v, (n.toNat = 0 ∨ s.I.toNat + n.toNat - 1 ≤ 0xFFF) → exec (.drw x y n) s = .next t →
    u.fb = t.fb → u.I = s.I → readV u x = readV s x → readV u y = readV s y → SameBytes s u →
    exec (.drw x y n) u = .next v → v.fb = s.fb ∧
    (readV t 0xF = 1 ↔ ∃ px py, SpriteHits x y n s px py ∧ pixel s.fb px py = true) ∧
    (readV v 0xF = 1 ↔ ∃ px py, SpriteHits x y n s px py ∧ pixel s.fb px py = false)

/-! ### Random, keys and timers -/

/-- RND (R220). -/
def Obligations.RndMasksTheSampledByte : Prop :=
  ∀ x kk s, ∃ t, exec (.rnd x kk) s = .next t ∧ SameRegsBut [x] s t ∧ OnlyRegsNext s t ∧
    ∀ b, (readV t x).getLsbD b = (s.rndS.getLsbD b && kk.getLsbD b)

/-- SKP and SKNP (R221, R222, R223): the skip by the sampled key, or KEY_INDEX_OOB with the value of Vx. -/
def Obligations.KeySkipsFollowTheSampledKey : Prop :=
  (∀ x s, (readV s x).toNat ≤ 0x0F → ∃ t, exec (.skp x) s = .next t ∧ OnlyPc s t ∧
    (s.keys.getLsbD (readV s x).toNat = true → t.pc = s.pc + 4) ∧
    (s.keys.getLsbD (readV s x).toNat = false → t.pc = s.pc + 2)) ∧
  (∀ x s, (readV s x).toNat ≤ 0x0F → ∃ t, exec (.sknp x) s = .next t ∧ OnlyPc s t ∧
    (s.keys.getLsbD (readV s x).toNat = false → t.pc = s.pc + 4) ∧
    (s.keys.getLsbD (readV s x).toNat = true → t.pc = s.pc + 2)) ∧
  (∀ x s, 0x0F < (readV s x).toNat →
    exec (.skp x) s = .next (Faulted .keyIndexOob (readV s x).toNat (encode (.skp x)) s) ∧
    exec (.sknp x) s = .next (Faulted .keyIndexOob (readV s x).toNat (encode (.sknp x)) s))

/-- LD Vx,DT, LD DT,Vx and LD ST,Vx (R224, R225, R226), and `sound_on` after the last. -/
def Obligations.TimerMovesCopyTheValue : Prop :=
  (∀ x s, ∃ t, exec (.ldVxDt x) s = .next t ∧ readV t x = s.DT ∧ SameRegsBut [x] s t ∧ OnlyRegsNext s t) ∧
  (∀ x s, ∃ t, exec (.ldDtVx x) s = .next t ∧ t.DT = readV s x ∧ t = { s with DT := t.DT, pc := s.pc + 2 } ∧ SameBytes s t) ∧
  (∀ x s, ∃ t, exec (.ldStVx x) s = .next t ∧ t.ST = readV s x ∧ t = { s with ST := t.ST, pc := s.pc + 2 } ∧ SameBytes s t ∧
    (t.soundOn = true ↔ readV s x ≠ 0))

/-- LD Vx,K (R230): the lowest pressed key and the end of a wait, or the wait with pc unchanged. -/
def Obligations.KeyReadTakesLowestKeyOrWaits : Prop :=
  (∀ x s k, k < 16 → s.keys.getLsbD k = true → (∀ j, j < k → s.keys.getLsbD j = false) →
    ∃ t, exec (.ldVxK x) s = .next t ∧ (readV t x).toNat = k ∧ SameRegsBut [x] s t ∧ SameBytes s t ∧
      t = { s with V := t.V, waitKey := false, fsm := .running, pc := s.pc + 2 }) ∧
  (∀ x s, s.keys = 0 →
    exec (.ldVxK x) s = .next { s with waitKey := true, waitReg := x, fsm := .waitingForKey })

/-- While waiting, a step with no key pressed changes no core state but the random sample (R231, R113). -/
def Obligations.WaitingStepWithoutKeyChangesNothing : Prop :=
  ∀ s r rest, CoreInv s → s.fsm = .waitingForKey → s.pending = .step 0 r false :: rest →
    step s = .next { s with pending := rest, keys := 0, rndS := r, frame := true, decodeFail := false }

/-- The wait ends only by a key, a stop or a reset (R112, R113, R231, 60_exceptions.md R256): a Step from WAITING_FOR_KEY never faults, halts or
runs another instruction, and a key ends it with the lowest pressed key stored; a Tick, and an unscheduled step (whose keypad is the model's
choice, log 2), leave the core waiting at the same pc; a Reset ends it. -/
def Obligations.WaitEndsOnlyByKeyStopOrReset : Prop :=
  (∀ s k r stop rest t, CoreInv s → s.fsm = .waitingForKey → s.pending = .step k r stop :: rest → step s = .next t →
    (stop = true ∧ t.fsm = .stopped ∧ t.pc = s.pc) ∨
    (stop = false ∧ k = 0 ∧ t.fsm = .waitingForKey ∧ t.pc = s.pc) ∨
    (stop = false ∧ k ≠ 0 ∧ t.fsm = .running ∧ t.pc = s.pc + 2 ∧ k.getLsbD (readV t s.waitReg).toNat = true ∧
      ∀ j, j < (readV t s.waitReg).toNat → k.getLsbD j = false)) ∧
  (∀ s t, CoreInv s → s.fsm = .waitingForKey → s.pending = [] → step s = .next t → t.fsm = .waitingForKey ∧ t.pc = s.pc) ∧
  (∀ s rest t, CoreInv s → s.fsm = .waitingForKey → s.pending = .tick :: rest → step s = .next t →
    t.fsm = .waitingForKey ∧ t.pc = s.pc) ∧
  (∀ s image rest t, CoreInv s → s.fsm = .waitingForKey → s.pending = .reset image :: rest → step s = .next t →
    t.fsm ≠ .waitingForKey ∧ t.waitKey = false)

/-! ### Rules about the whole machine -/

/-- The invariant and the pc bounds hold right after reset, for every image that fits and every parameter. -/
def Obligations.ResetMeetsTheInvariants : Prop :=
  (CoreInv State.reset ∧ PcInv State.reset) ∧ ∀ p image, CoreInv (bootState p image) ∧ PcInv (bootState p image)

/-- Every step keeps the invariant: canonical memory, the wait-for-key rule (R31, R113, R231) up to the stop that ends a wait (log 10), and a
fault record exactly in FAULTED. -/
def Obligations.StepKeepsTheInvariant : Prop := ∀ s t, CoreInv s → step s = .next t → CoreInv t

/-- Every step keeps pc at most 0x10FE and every live return address at most 0x1000, so no pc ever wraps (R23, R139). -/
def Obligations.StepKeepsPcBounds : Prop := ∀ s t, PcInv s → step s = .next t → PcInv t

/-- No event changes the parameters (R7), which the model holds in State (log 4). -/
def Obligations.ParametersNeverChange : Prop := ∀ s t, step s = .next t → t.params = s.params

/-- Who writes what (R22, R24, R27, R28, R29, R31): I, the stack, the timers, the framebuffer and the wait state are written only by the
instructions the spec names. -/
def Obligations.OnlyNamedInstructionsWriteEachRegister : Prop :=
  ∀ i s t, exec i s = .next t →
    (t.I ≠ s.I → (∃ nnn, i = .ldI nnn) ∨ ∃ x, i = .addI x ∨ i = .ldF x) ∧
    (t.stack ≠ s.stack → ∃ nnn, i = .call nnn) ∧
    (t.sp ≠ s.sp → (∃ nnn, i = .call nnn) ∨ ∃ z, i = .ret z) ∧
    (t.DT ≠ s.DT → ∃ x, i = .ldDtVx x) ∧ (t.ST ≠ s.ST → ∃ x, i = .ldStVx x) ∧
    (t.fb ≠ s.fb → (∃ z, i = .cls z) ∨ ∃ x y n, i = .drw x y n) ∧
    (t.waitKey ≠ s.waitKey ∨ t.waitReg ≠ s.waitReg → ∃ x, i = .ldVxK x)

/-- VF is written as a flag only by ADD, SUB, SHR, SUBN, SHL and DRW; any other instruction changes VF only as its named destination (R21). -/
def Obligations.OnlyFlagInstructionsWriteVf : Prop :=
  ∀ i s t, exec i s = .next t → readV t 0xF ≠ readV s 0xF →
    (∃ x y, i = .addReg x y ∨ i = .sub x y ∨ i = .shr x y ∨ i = .subn x y ∨ i = .shl x y) ∨ (∃ x y n, i = .drw x y n) ∨
    (∃ kk, i = .ldX 0xF kk ∨ i = .addImm 0xF kk ∨ i = .rnd 0xF kk) ∨
    (∃ y, i = .ldReg 0xF y ∨ i = .orReg 0xF y ∨ i = .andReg 0xF y ∨ i = .xorReg 0xF y) ∨
    i = .ldVxDt 0xF ∨ i = .ldVxK 0xF ∨ i = .ldVxI 0xF

/-- The random byte reaches the machine only through RND (R220, R100). -/
def Obligations.RandomByteReachesOnlyRnd : Prop :=
  ∀ i s r t, (∀ x kk, i ≠ .rnd x kk) → exec i s = .next t → exec i { s with rndS := r } = .next { t with rndS := r }

/-- The keypad reaches the machine only through SKP, SKNP and LD Vx,K (R30). -/
def Obligations.KeypadReachesOnlyKeyInstructions : Prop :=
  ∀ i s k t, (∀ x, i ≠ .skp x ∧ i ≠ .sknp x ∧ i ≠ .ldVxK x) → exec i s = .next t →
    exec i { s with keys := k } = .next { t with keys := k }

/-- The sound timer is read by no instruction (R28): changing it changes nothing but itself. -/
def Obligations.SoundTimerIsReadByNoInstruction : Prop :=
  (∀ i s v t, (∀ x, i ≠ .ldStVx x) → exec i s = .next t → exec i { s with ST := v } = .next { t with ST := v }) ∧
  (∀ x s v, exec (.ldStVx x) { s with ST := v } = exec (.ldStVx x) s)

/-- The framebuffer is read only to draw (R29): replacing it changes nothing but the framebuffer, and VF for DRW. -/
def Obligations.FramebufferIsReadOnlyByDrw : Prop :=
  ∀ i s f t, (∀ x y n, i ≠ .drw x y n) → exec i s = .next t →
    ∃ g, exec i { s with fb := f } = .next { t with fb := g }

/-- A stale stack entry, at or above sp, is seen by no instruction (R26; that the model keeps it is log 14). -/
def Obligations.StaleStackEntriesAreUnobservable : Prop :=
  ∀ i s t (st : Vector Word 16), (∀ k, (hk : k < 16) → k < s.sp.val → st[k] = s.stack[k]) → exec i s = .next t →
    ∃ st', exec i { s with stack := st } = .next { t with stack := st' } ∧
      ∀ k, (hk : k < 16) → k < t.sp.val → st'[k] = t.stack[k]
end

