-- ==== Sys2Proof/Laws/Decode.lean ====
section
/-! SUPPORT. The small lemmas of the decoder and the encoder: the fields of a word built from fields, and a word rebuilt from its fields. -/

namespace Sys2Proof

/-! ### Fields of built words -/

theorem getLsbD_ofNibbles (a b c d : Nibble) (i : Nat) :
    (ofNibbles a b c d).getLsbD i =
      if i < 4 then d.getLsbD i else if i < 8 then c.getLsbD (i - 4) else if i < 12 then b.getLsbD (i - 8) else a.getLsbD (i - 12) := by
  simp only [ofNibbles, BitVec.getLsbD_append]
  split_ifs <;> first | rfl | omega

theorem getLsbD_ofXkk (a x : Nibble) (kk : Byte) (i : Nat) :
    (ofXkk a x kk).getLsbD i = if i < 8 then kk.getLsbD i else if i < 12 then x.getLsbD (i - 8) else a.getLsbD (i - 12) := by
  simp only [ofXkk, BitVec.getLsbD_append]
  split_ifs <;> first | rfl | omega

theorem getLsbD_ofNnn (a : Nibble) (nnn : Addr12) (i : Nat) :
    (ofNnn a nnn).getLsbD i = if i < 12 then nnn.getLsbD i else a.getLsbD (i - 12) := by
  simp only [ofNnn, BitVec.getLsbD_append]

@[simp] theorem opField_ofNibbles (a b c d : Nibble) : opField (ofNibbles a b c d) = a := by
  ext i hi
  rw [← BitVec.getLsbD_eq_getElem, ← BitVec.getLsbD_eq_getElem, opField, BitVec.getLsbD_extractLsb', getLsbD_ofNibbles]
  simp only [hi, decide_true, Bool.true_and]
  split_ifs <;> first | omega | (congr 1; omega)

@[simp] theorem xField_ofNibbles (a b c d : Nibble) : xField (ofNibbles a b c d) = b := by
  ext i hi
  rw [← BitVec.getLsbD_eq_getElem, ← BitVec.getLsbD_eq_getElem, xField, BitVec.getLsbD_extractLsb', getLsbD_ofNibbles]
  simp only [hi, decide_true, Bool.true_and]
  split_ifs <;> first | omega | (congr 1; omega)

@[simp] theorem yField_ofNibbles (a b c d : Nibble) : yField (ofNibbles a b c d) = c := by
  ext i hi
  rw [← BitVec.getLsbD_eq_getElem, ← BitVec.getLsbD_eq_getElem, yField, BitVec.getLsbD_extractLsb', getLsbD_ofNibbles]
  simp only [hi, decide_true, Bool.true_and]
  split_ifs <;> first | omega | (congr 1; omega)

@[simp] theorem nField_ofNibbles (a b c d : Nibble) : nField (ofNibbles a b c d) = d := by
  ext i hi
  rw [← BitVec.getLsbD_eq_getElem, ← BitVec.getLsbD_eq_getElem, nField, BitVec.getLsbD_extractLsb', getLsbD_ofNibbles]
  simp only [hi, decide_true, Bool.true_and]
  split_ifs <;> first | omega | (congr 1; omega)

@[simp] theorem opField_ofXkk (a x : Nibble) (kk : Byte) : opField (ofXkk a x kk) = a := by
  ext i hi
  rw [← BitVec.getLsbD_eq_getElem, ← BitVec.getLsbD_eq_getElem, opField, BitVec.getLsbD_extractLsb', getLsbD_ofXkk]
  simp only [hi, decide_true, Bool.true_and]
  split_ifs <;> first | omega | (congr 1; omega)

@[simp] theorem xField_ofXkk (a x : Nibble) (kk : Byte) : xField (ofXkk a x kk) = x := by
  ext i hi
  rw [← BitVec.getLsbD_eq_getElem, ← BitVec.getLsbD_eq_getElem, xField, BitVec.getLsbD_extractLsb', getLsbD_ofXkk]
  simp only [hi, decide_true, Bool.true_and]
  split_ifs <;> first | omega | (congr 1; omega)

@[simp] theorem kkField_ofXkk (a x : Nibble) (kk : Byte) : kkField (ofXkk a x kk) = kk := by
  ext i hi
  rw [← BitVec.getLsbD_eq_getElem, ← BitVec.getLsbD_eq_getElem, kkField, BitVec.getLsbD_extractLsb', getLsbD_ofXkk]
  simp only [hi, decide_true, Bool.true_and]
  split_ifs <;> first | omega | (congr 1; omega)

@[simp] theorem opField_ofNnn (a : Nibble) (nnn : Addr12) : opField (ofNnn a nnn) = a := by
  ext i hi
  rw [← BitVec.getLsbD_eq_getElem, ← BitVec.getLsbD_eq_getElem, opField, BitVec.getLsbD_extractLsb', getLsbD_ofNnn]
  simp only [hi, decide_true, Bool.true_and]
  split_ifs <;> first | omega | (congr 1; omega)

@[simp] theorem nnnField_ofNnn (a : Nibble) (nnn : Addr12) : nnnField (ofNnn a nnn) = nnn := by
  ext i hi
  rw [← BitVec.getLsbD_eq_getElem, ← BitVec.getLsbD_eq_getElem, nnnField, BitVec.getLsbD_extractLsb', getLsbD_ofNnn]
  simp only [hi, decide_true, Bool.true_and]
  split_ifs <;> first | omega | (congr 1; omega)

/-! ### Words rebuilt from their fields -/

theorem ofNibbles_fields (w : Word) : ofNibbles (opField w) (xField w) (yField w) (nField w) = w := by
  ext i hi
  rw [← BitVec.getLsbD_eq_getElem, ← BitVec.getLsbD_eq_getElem, getLsbD_ofNibbles]
  simp only [opField, xField, yField, nField, BitVec.getLsbD_extractLsb']
  split_ifs with h1 h2 h3
  · simp [h1]
  · simp [show i - 4 < 4 by omega, show 4 + (i - 4) = i by omega]
  · simp [show i - 8 < 4 by omega, show 8 + (i - 8) = i by omega]
  · simp [show i - 12 < 4 by omega, show 12 + (i - 12) = i by omega]

theorem ofXkk_fields (w : Word) : ofXkk (opField w) (xField w) (kkField w) = w := by
  ext i hi
  rw [← BitVec.getLsbD_eq_getElem, ← BitVec.getLsbD_eq_getElem, getLsbD_ofXkk]
  simp only [opField, xField, kkField, BitVec.getLsbD_extractLsb']
  split_ifs with h1 h2
  · simp [h1]
  · simp [show i - 8 < 4 by omega, show 8 + (i - 8) = i by omega]
  · simp [show i - 12 < 4 by omega, show 12 + (i - 12) = i by omega]

theorem ofNnn_fields (w : Word) : ofNnn (opField w) (nnnField w) = w := by
  ext i hi
  rw [← BitVec.getLsbD_eq_getElem, ← BitVec.getLsbD_eq_getElem, getLsbD_ofNnn]
  simp only [opField, nnnField, BitVec.getLsbD_extractLsb']
  split_ifs with h1
  · simp [h1]
  · simp [show i - 12 < 4 by omega, show 12 + (i - 12) = i by omega]

/-- The two bytes of a word, put together big-endian, are the word (R55). -/
theorem wordOfBytes_bytes (w : Word) : wordOfBytes (w.extractLsb' 8 8) (w.extractLsb' 0 8) = w := by
  ext i hi
  rw [← BitVec.getLsbD_eq_getElem, ← BitVec.getLsbD_eq_getElem, wordOfBytes, BitVec.getLsbD_append]
  simp only [BitVec.getLsbD_extractLsb']
  split_ifs with h1
  · simp [h1]
  · simp [show i - 8 < 8 by omega, show 8 + (i - 8) = i by omega]

/-! ### Built words under the masks of R74 -/

theorem and_allOnes4 (a : Nibble) : a &&& 0xF = a := BitVec.and_allOnes
theorem and_allOnes8 (a : Byte) : a &&& 0xFF = a := BitVec.and_allOnes

theorem and_zero4 (a : Nibble) : a &&& 0 = 0 := BitVec.and_zero
theorem and_zero8 (a : Byte) : a &&& 0 = 0 := BitVec.and_zero
theorem and_zero12 (a : Addr12) : a &&& 0 = 0 := BitVec.and_zero

theorem ofNibbles_and (a b c d a' b' c' d' : Nibble) :
    ofNibbles a b c d &&& ofNibbles a' b' c' d' = ofNibbles (a &&& a') (b &&& b') (c &&& c') (d &&& d') := by
  apply BitVec.eq_of_getLsbD_eq
  intro i _
  simp only [BitVec.getLsbD_and, getLsbD_ofNibbles]
  split_ifs <;> rfl

theorem ofXkk_and (a x a' x' : Nibble) (kk kk' : Byte) :
    ofXkk a x kk &&& ofXkk a' x' kk' = ofXkk (a &&& a') (x &&& x') (kk &&& kk') := by
  apply BitVec.eq_of_getLsbD_eq
  intro i _
  simp only [BitVec.getLsbD_and, getLsbD_ofXkk]
  split_ifs <;> rfl

theorem ofNnn_and (a a' : Nibble) (b b' : Addr12) : ofNnn a b &&& ofNnn a' b' = ofNnn (a &&& a') (b &&& b') := by
  apply BitVec.eq_of_getLsbD_eq
  intro i _
  simp only [BitVec.getLsbD_and, getLsbD_ofNnn]
  split_ifs <;> rfl

theorem ofNibbles_top (a b c d : Nibble) : ofNibbles a b c d &&& 0xF000 = ofNibbles a 0 0 0 := by
  have := ofNibbles_and a b c d 0xF 0 0 0
  simp only [and_allOnes4, and_zero4] at this
  exact this

theorem ofNibbles_topLow (a b c d : Nibble) : ofNibbles a b c d &&& 0xF00F = ofNibbles a 0 0 d := by
  have := ofNibbles_and a b c d 0xF 0 0 0xF
  simp only [and_allOnes4, and_zero4] at this
  exact this

theorem ofXkk_top (a x : Nibble) (kk : Byte) : ofXkk a x kk &&& 0xF000 = ofXkk a 0 0 := by
  have := ofXkk_and a x 0xF 0 kk 0
  simp only [and_allOnes4, and_zero4, and_zero8] at this
  exact this

theorem ofXkk_lowByte (a x : Nibble) (kk : Byte) : ofXkk a x kk &&& 0xF0FF = ofXkk a 0 kk := by
  have := ofXkk_and a x 0xF 0 kk 0xFF
  simp only [and_allOnes4, and_allOnes8, and_zero4] at this
  exact this

theorem ofNnn_top (a : Nibble) (nnn : Addr12) : ofNnn a nnn &&& 0xF000 = ofNnn a 0 := by
  have := ofNnn_and a 0xF nnn 0
  simp only [and_allOnes4, and_zero12] at this
  exact this

/-! ### decode -/

/-- A failing decode names the word itself (R80). -/
theorem decode_failure_word {w w' : Word} (h : decode w = .failure w') : w' = w := by
  unfold decode decodeFamily0 decodeFamily8 decodeFamilyE decodeFamilyF at h
  repeat' split at h
  all_goals first | cases h; rfl | cases h

end Sys2Proof
end

