-- ==== Sys2Proof/Laws/Memory.lean ====
section
/-! SUPPORT. The laws of memory: read after write, writes elsewhere, and that every memory operation keeps the canonical form. -/

namespace Sys2Proof.Machine

/-! ### The listing -/

@[simp] theorem lookupByte_nil (a : Nat) : lookupByte a [] = none := rfl

theorem lookupByte_eraseByte_self (a : Nat) (m : Memory) : lookupByte a (eraseByte a m) = none := by
  induction m with
  | nil => rfl
  | cons c m ih => by_cases h : c.1 = a <;> simp [eraseByte, lookupByte, h, ih]

theorem lookupByte_eraseByte_ne {a b : Nat} (hab : b ≠ a) (m : Memory) : lookupByte b (eraseByte a m) = lookupByte b m := by
  induction m with
  | nil => rfl
  | cons c m ih =>
    by_cases h : c.1 = a
    · simp [eraseByte, lookupByte, h, ih, Ne.symm hab]
    · simp [eraseByte, lookupByte, h, ih]

theorem lookupByte_insertCell_ne {c : Host.Cell} {b : Nat} (h : b ≠ c.1) (m : Memory) :
    lookupByte b (insertCell c m) = lookupByte b m := by
  induction m with
  | nil => simp [insertCell, lookupByte, Ne.symm h]
  | cons d m ih => by_cases hd : c.1 < d.1 <;> simp [insertCell, lookupByte, hd, ih, Ne.symm h]

theorem lookupByte_insertCell_self (c : Host.Cell) (m : Memory) (h : lookupByte c.1 m = none) :
    lookupByte c.1 (insertCell c m) = some c.2 := by
  induction m with
  | nil => simp [insertCell, lookupByte]
  | cons d m ih =>
    by_cases he : d.1 = c.1
    · simp [lookupByte, he] at h
    · simp only [lookupByte, he, if_false] at h
      by_cases hd : c.1 < d.1 <;> simp [insertCell, lookupByte, hd, he, ih h]

/-! ### Read after write -/

@[simp] theorem readByte_nil (a : Nat) : readByte [] a = unlistedByte a := rfl

@[simp] theorem readByte_writeByte_self (m : Memory) (a : Nat) (v : Byte) : readByte (writeByte m a v) a = v := by
  unfold readByte writeByte
  split
  · next h => simp [lookupByte_eraseByte_self, h]
  · rw [lookupByte_insertCell_self (a, v) _ (lookupByte_eraseByte_self a m)]; rfl

theorem readByte_writeByte_ne (m : Memory) {a b : Nat} (v : Byte) (h : b ≠ a) : readByte (writeByte m a v) b = readByte m b := by
  unfold readByte writeByte
  split
  · rw [lookupByte_eraseByte_ne h]
  · rw [lookupByte_insertCell_ne (c := (a, v)) h, lookupByte_eraseByte_ne h]

/-- A write of several bytes leaves every address outside them alone. -/
theorem readByte_writeBytes_outside (bs : List Byte) (m : Memory) (a b : Nat) (h : b < a ∨ a + bs.length ≤ b) :
    readByte (writeBytes m a bs) b = readByte m b := by
  induction bs generalizing m a with
  | nil => rfl
  | cons v bs ih =>
    simp only [List.length_cons] at h
    rw [writeBytes, ih _ _ (by omega), readByte_writeByte_ne _ _ (by omega)]

/-- A write of several bytes puts the k-th of them at `a + k`. -/
theorem readByte_writeBytes_inside (bs : List Byte) (m : Memory) (a k : Nat) (h : k < bs.length) :
    readByte (writeBytes m a bs) (a + k) = bs[k] := by
  induction bs generalizing m a k with
  | nil => simp at h
  | cons v bs ih =>
    cases k with
    | zero =>
      rw [writeBytes, readByte_writeBytes_outside _ _ _ _ (by omega)]
      simp
    | succ k =>
      have := ih (writeByte m a v) (a + 1) k (by simpa using h)
      rw [writeBytes, show a + (k + 1) = a + 1 + k by omega, this]
      simp

@[simp] theorem length_readBytes (m : Memory) (a n : Nat) : (readBytes m a n).length = n := by
  induction n generalizing a with
  | zero => rfl
  | succ n ih => simp [readBytes, ih]

theorem getElem_readBytes (m : Memory) (a n k : Nat) (h : k < (readBytes m a n).length) :
    (readBytes m a n)[k] = readByte m (a + k) := by
  induction n generalizing a k with
  | zero => simp at h
  | succ n ih =>
    cases k with
    | zero => simp [readBytes]
    | succ k => simp [readBytes, ih, show a + (k + 1) = a + 1 + k by omega]

/-- Reads depend on memory only through `readByte`. -/
theorem readBytes_congr {m m' : Memory} (n a : Nat) (h : ∀ k < n, readByte m (a + k) = readByte m' (a + k)) :
    readBytes m a n = readBytes m' a n := by
  induction n generalizing a with
  | zero => rfl
  | succ n ih =>
    have h0 := h 0 (by omega)
    rw [readBytes, readBytes, ih (a + 1) (fun k hk => by
      have := h (k + 1) (by omega)
      rwa [show a + (k + 1) = a + 1 + k by omega] at this)]
    simpa using h0

/-! ### The canonical form -/

/-- Every cell of a listing is in range and says something. -/
def cellsOk (m : Memory) : Prop := ∀ c ∈ m, c.1 < Config.memSize ∧ c.2 ≠ unlistedByte c.1

theorem wf_iff (m : Memory) : Memory.wf m = true ↔ risingFrom 0 m = true ∧ cellsOk m := by
  simp [Memory.wf, cellsOk, List.all_eq_true]

theorem wf_nil : Memory.wf [] = true := rfl

theorem risingFrom_mono {lo lo' : Nat} (h : lo' ≤ lo) (m : Memory) (hm : risingFrom lo m = true) : risingFrom lo' m = true := by
  cases m with
  | nil => rfl
  | cons c m =>
    simp only [risingFrom, Bool.and_eq_true, decide_eq_true_eq] at hm ⊢
    exact ⟨by omega, hm.2⟩

theorem risingFrom_eraseByte (a : Nat) (m : Memory) (lo : Nat) (hm : risingFrom lo m = true) :
    risingFrom lo (eraseByte a m) = true := by
  induction m generalizing lo with
  | nil => rfl
  | cons c m ih =>
    simp only [risingFrom, Bool.and_eq_true, decide_eq_true_eq] at hm
    by_cases h : c.1 = a
    · simp only [eraseByte, h, if_true]
      exact risingFrom_mono (by omega) _ (ih _ hm.2)
    · simp only [eraseByte, h, if_false, risingFrom, Bool.and_eq_true, decide_eq_true_eq]
      exact ⟨hm.1, ih _ hm.2⟩

theorem risingFrom_insertCell (c : Host.Cell) (m : Memory) (lo : Nat) (hm : risingFrom lo m = true) (hlo : lo ≤ c.1)
    (hn : lookupByte c.1 m = none) : risingFrom lo (insertCell c m) = true := by
  induction m generalizing lo with
  | nil => simp [insertCell, risingFrom, hlo]
  | cons d m ih =>
    simp only [risingFrom, Bool.and_eq_true, decide_eq_true_eq] at hm
    have hne : d.1 ≠ c.1 := by
      intro he
      simp [lookupByte, he] at hn
    simp only [lookupByte, hne, if_false] at hn
    by_cases hd : c.1 < d.1
    · simp only [insertCell, hd, if_true, risingFrom, Bool.and_eq_true, decide_eq_true_eq]
      exact ⟨hlo, by omega, hm.2⟩
    · simp only [insertCell, hd, if_false, risingFrom, Bool.and_eq_true, decide_eq_true_eq]
      exact ⟨hm.1, ih _ hm.2 (by omega) hn⟩

theorem cellsOk_eraseByte (a : Nat) (m : Memory) (h : cellsOk m) : cellsOk (eraseByte a m) := by
  induction m with
  | nil => exact h
  | cons c m ih =>
    have hc := h c (by simp)
    have hm := ih (fun d hd => h d (by simp [hd]))
    by_cases he : c.1 = a
    · simpa [eraseByte, he] using hm
    · simp only [eraseByte, he, if_false]
      intro d hd
      rcases List.mem_cons.mp hd with rfl | hd
      · exact hc
      · exact hm d hd

theorem cellsOk_insertCell (c : Host.Cell) (m : Memory) (hc : c.1 < Config.memSize ∧ c.2 ≠ unlistedByte c.1) (h : cellsOk m) :
    cellsOk (insertCell c m) := by
  induction m with
  | nil => simpa [insertCell, cellsOk] using hc
  | cons d m ih =>
    have hm := ih (fun e he => h e (by simp [he]))
    have hd := h d (by simp)
    by_cases hlt : c.1 < d.1
    · simp only [insertCell, hlt, if_true]
      intro e he
      rcases List.mem_cons.mp he with rfl | he
      · exact hc
      · exact h e he
    · simp only [insertCell, hlt, if_false]
      intro e he
      rcases List.mem_cons.mp he with rfl | he
      · exact hd
      · exact hm e he

/-- A write to an address in range keeps the canonical form. -/
theorem wf_writeByte (m : Memory) (a : Nat) (v : Byte) (ha : a < Config.memSize) (h : Memory.wf m = true) :
    Memory.wf (writeByte m a v) = true := by
  rw [wf_iff] at h ⊢
  have hr := risingFrom_eraseByte a m 0 h.1
  have ho := cellsOk_eraseByte a m h.2
  unfold writeByte
  split
  · exact ⟨hr, ho⟩
  · next hv =>
    exact ⟨risingFrom_insertCell (a, v) _ 0 hr (Nat.zero_le _) (lookupByte_eraseByte_self a m),
      cellsOk_insertCell (a, v) _ ⟨ha, hv⟩ ho⟩

/-- A write of several bytes in range keeps the canonical form. -/
theorem wf_writeBytes (bs : List Byte) (m : Memory) (a : Nat) (ha : a + bs.length ≤ Config.memSize) (h : Memory.wf m = true) :
    Memory.wf (writeBytes m a bs) = true := by
  induction bs generalizing m a with
  | nil => exact h
  | cons v bs ih =>
    simp only [List.length_cons] at ha
    exact ih _ _ (by omega) (wf_writeByte m a v (by omega) h)

theorem wf_fontMemory (font : FontTable) : Memory.wf (fontMemory font) = true :=
  wf_writeBytes _ _ _ (by simp [Config.memSize]) wf_nil

theorem lookupByte_eq_none_of_rising {lo a : Nat} (m : Memory) (hm : risingFrom lo m = true) (h : a < lo) : lookupByte a m = none := by
  induction m generalizing lo with
  | nil => rfl
  | cons c m ih =>
    simp only [risingFrom, Bool.and_eq_true, decide_eq_true_eq] at hm
    simp [lookupByte, show c.1 ≠ a by omega, ih hm.2 (by omega)]

theorem readByte_cons (c : Host.Cell) (m : Memory) (a : Nat) :
    readByte (c :: m) a = if c.1 = a then c.2 else readByte m a := by
  by_cases h : c.1 = a <;> simp [readByte, lookupByte, h]

theorem readByte_of_rising {lo a : Nat} (m : Memory) (hm : risingFrom lo m = true) (h : a < lo) : readByte m a = unlistedByte a := by
  simp [readByte, lookupByte_eq_none_of_rising m hm h]

/-- Canonical memories that read the same everywhere are the same list. -/
theorem eq_of_readByte_eq {lo : Nat} (m m' : Memory) (hr : risingFrom lo m = true) (hr' : risingFrom lo m' = true)
    (ho : cellsOk m) (ho' : cellsOk m') (h : ∀ a, readByte m a = readByte m' a) : m = m' := by
  induction m generalizing lo m' with
  | nil =>
    cases m' with
    | nil => rfl
    | cons d m' =>
      have := h d.1
      simp only [readByte_nil, readByte_cons, if_true] at this
      exact absurd this.symm (ho' d (by simp)).2
  | cons c m ih =>
    have hc := ho c (by simp)
    simp only [risingFrom, Bool.and_eq_true, decide_eq_true_eq] at hr
    cases m' with
    | nil =>
      have := h c.1
      simp only [readByte_nil, readByte_cons, if_true] at this
      exact absurd this hc.2
    | cons d m' =>
      have hd := ho' d (by simp)
      simp only [risingFrom, Bool.and_eq_true, decide_eq_true_eq] at hr'
      have hcd : c.1 = d.1 := by
        rcases Nat.lt_trichotomy c.1 d.1 with hlt | he | hgt
        · have := h c.1
          rw [readByte_cons, if_pos rfl, readByte_cons, if_neg (by omega), readByte_of_rising m' hr'.2 (by omega)] at this
          exact absurd this hc.2
        · exact he
        · have := h d.1
          rw [readByte_cons, if_neg (by omega), readByte_of_rising m hr.2 (by omega), readByte_cons, if_pos rfl] at this
          exact absurd this.symm hd.2
      have hv : c.2 = d.2 := by
        have := h c.1
        rwa [readByte_cons, if_pos rfl, readByte_cons, if_pos hcd.symm] at this
      have htail : m = m' := ih m' hr.2 (hcd ▸ hr'.2) (fun e he => ho e (by simp [he])) (fun e he => ho' e (by simp [he]))
        (fun a => by
          by_cases ha : c.1 = a
          · rw [readByte_of_rising m hr.2 (by omega), readByte_of_rising m' hr'.2 (by omega)]
          · have := h a
            rwa [readByte_cons, if_neg ha, readByte_cons, if_neg (hcd ▸ ha)] at this)
      rw [htail, show c = d from Prod.ext hcd hv]

theorem wf_ext {m m' : Memory} (hm : Memory.wf m = true) (hm' : Memory.wf m' = true)
    (h : ∀ a, readByte m a = readByte m' a) : m = m' :=
  eq_of_readByte_eq m m' ((wf_iff m).mp hm).1 ((wf_iff m').mp hm').1 ((wf_iff m).mp hm).2 ((wf_iff m').mp hm').2 h

theorem wf_reset : Memory.wf State.reset.mem = true := rfl

end Sys2Proof.Machine
end

