-- ==== Sys2Proof/Laws/State.lean ====
section
/-! SUPPORT. What each state update does to each field: one simp lemma per field per update, so that no later proof unfolds a record update. -/

namespace Sys2Proof.Machine

variable (s : State)

/-! ### setV -/
@[simp] theorem setV_V (x : Nibble) (b : Byte) : (setV x b s).V = s.V.set x.toNat b x.isLt := rfl
@[simp] theorem setV_I (x : Nibble) (b : Byte) : (setV x b s).I = s.I := rfl
@[simp] theorem setV_pc (x : Nibble) (b : Byte) : (setV x b s).pc = s.pc := rfl
@[simp] theorem setV_stack (x : Nibble) (b : Byte) : (setV x b s).stack = s.stack := rfl
@[simp] theorem setV_sp (x : Nibble) (b : Byte) : (setV x b s).sp = s.sp := rfl
@[simp] theorem setV_DT (x : Nibble) (b : Byte) : (setV x b s).DT = s.DT := rfl
@[simp] theorem setV_ST (x : Nibble) (b : Byte) : (setV x b s).ST = s.ST := rfl
@[simp] theorem setV_mem (x : Nibble) (b : Byte) : (setV x b s).mem = s.mem := rfl
@[simp] theorem setV_fb (x : Nibble) (b : Byte) : (setV x b s).fb = s.fb := rfl
@[simp] theorem setV_keys (x : Nibble) (b : Byte) : (setV x b s).keys = s.keys := rfl
@[simp] theorem setV_rndS (x : Nibble) (b : Byte) : (setV x b s).rndS = s.rndS := rfl
@[simp] theorem setV_waitKey (x : Nibble) (b : Byte) : (setV x b s).waitKey = s.waitKey := rfl
@[simp] theorem setV_waitReg (x : Nibble) (b : Byte) : (setV x b s).waitReg = s.waitReg := rfl
@[simp] theorem setV_fsm (x : Nibble) (b : Byte) : (setV x b s).fsm = s.fsm := rfl
@[simp] theorem setV_fault (x : Nibble) (b : Byte) : (setV x b s).fault = s.fault := rfl
@[simp] theorem setV_report (x : Nibble) (b : Byte) : (setV x b s).report = s.report := rfl
@[simp] theorem setV_frame (x : Nibble) (b : Byte) : (setV x b s).frame = s.frame := rfl
@[simp] theorem setV_decodeFail (x : Nibble) (b : Byte) : (setV x b s).decodeFail = s.decodeFail := rfl
@[simp] theorem setV_params (x : Nibble) (b : Byte) : (setV x b s).params = s.params := rfl
@[simp] theorem setV_pending (x : Nibble) (b : Byte) : (setV x b s).pending = s.pending := rfl
@[simp] theorem setV_draws (x : Nibble) (b : Byte) : (setV x b s).draws = s.draws := rfl

/-! ### setRegs -/
@[simp] theorem setRegs_V (v : Vector Byte 16) : (setRegs v s).V = v := rfl
@[simp] theorem setRegs_I (v : Vector Byte 16) : (setRegs v s).I = s.I := rfl
@[simp] theorem setRegs_pc (v : Vector Byte 16) : (setRegs v s).pc = s.pc := rfl
@[simp] theorem setRegs_stack (v : Vector Byte 16) : (setRegs v s).stack = s.stack := rfl
@[simp] theorem setRegs_sp (v : Vector Byte 16) : (setRegs v s).sp = s.sp := rfl
@[simp] theorem setRegs_DT (v : Vector Byte 16) : (setRegs v s).DT = s.DT := rfl
@[simp] theorem setRegs_ST (v : Vector Byte 16) : (setRegs v s).ST = s.ST := rfl
@[simp] theorem setRegs_mem (v : Vector Byte 16) : (setRegs v s).mem = s.mem := rfl
@[simp] theorem setRegs_fb (v : Vector Byte 16) : (setRegs v s).fb = s.fb := rfl
@[simp] theorem setRegs_keys (v : Vector Byte 16) : (setRegs v s).keys = s.keys := rfl
@[simp] theorem setRegs_rndS (v : Vector Byte 16) : (setRegs v s).rndS = s.rndS := rfl
@[simp] theorem setRegs_waitKey (v : Vector Byte 16) : (setRegs v s).waitKey = s.waitKey := rfl
@[simp] theorem setRegs_waitReg (v : Vector Byte 16) : (setRegs v s).waitReg = s.waitReg := rfl
@[simp] theorem setRegs_fsm (v : Vector Byte 16) : (setRegs v s).fsm = s.fsm := rfl
@[simp] theorem setRegs_fault (v : Vector Byte 16) : (setRegs v s).fault = s.fault := rfl
@[simp] theorem setRegs_report (v : Vector Byte 16) : (setRegs v s).report = s.report := rfl
@[simp] theorem setRegs_frame (v : Vector Byte 16) : (setRegs v s).frame = s.frame := rfl
@[simp] theorem setRegs_decodeFail (v : Vector Byte 16) : (setRegs v s).decodeFail = s.decodeFail := rfl
@[simp] theorem setRegs_params (v : Vector Byte 16) : (setRegs v s).params = s.params := rfl
@[simp] theorem setRegs_pending (v : Vector Byte 16) : (setRegs v s).pending = s.pending := rfl
@[simp] theorem setRegs_draws (v : Vector Byte 16) : (setRegs v s).draws = s.draws := rfl

/-! ### setI -/
@[simp] theorem setI_V (v : Word) : (setI v s).V = s.V := rfl
@[simp] theorem setI_I (v : Word) : (setI v s).I = v := rfl
@[simp] theorem setI_pc (v : Word) : (setI v s).pc = s.pc := rfl
@[simp] theorem setI_stack (v : Word) : (setI v s).stack = s.stack := rfl
@[simp] theorem setI_sp (v : Word) : (setI v s).sp = s.sp := rfl
@[simp] theorem setI_DT (v : Word) : (setI v s).DT = s.DT := rfl
@[simp] theorem setI_ST (v : Word) : (setI v s).ST = s.ST := rfl
@[simp] theorem setI_mem (v : Word) : (setI v s).mem = s.mem := rfl
@[simp] theorem setI_fb (v : Word) : (setI v s).fb = s.fb := rfl
@[simp] theorem setI_keys (v : Word) : (setI v s).keys = s.keys := rfl
@[simp] theorem setI_rndS (v : Word) : (setI v s).rndS = s.rndS := rfl
@[simp] theorem setI_waitKey (v : Word) : (setI v s).waitKey = s.waitKey := rfl
@[simp] theorem setI_waitReg (v : Word) : (setI v s).waitReg = s.waitReg := rfl
@[simp] theorem setI_fsm (v : Word) : (setI v s).fsm = s.fsm := rfl
@[simp] theorem setI_fault (v : Word) : (setI v s).fault = s.fault := rfl
@[simp] theorem setI_report (v : Word) : (setI v s).report = s.report := rfl
@[simp] theorem setI_frame (v : Word) : (setI v s).frame = s.frame := rfl
@[simp] theorem setI_decodeFail (v : Word) : (setI v s).decodeFail = s.decodeFail := rfl
@[simp] theorem setI_params (v : Word) : (setI v s).params = s.params := rfl
@[simp] theorem setI_pending (v : Word) : (setI v s).pending = s.pending := rfl
@[simp] theorem setI_draws (v : Word) : (setI v s).draws = s.draws := rfl

/-! ### setPc -/
@[simp] theorem setPc_V (v : Word) : (setPc v s).V = s.V := rfl
@[simp] theorem setPc_I (v : Word) : (setPc v s).I = s.I := rfl
@[simp] theorem setPc_pc (v : Word) : (setPc v s).pc = v := rfl
@[simp] theorem setPc_stack (v : Word) : (setPc v s).stack = s.stack := rfl
@[simp] theorem setPc_sp (v : Word) : (setPc v s).sp = s.sp := rfl
@[simp] theorem setPc_DT (v : Word) : (setPc v s).DT = s.DT := rfl
@[simp] theorem setPc_ST (v : Word) : (setPc v s).ST = s.ST := rfl
@[simp] theorem setPc_mem (v : Word) : (setPc v s).mem = s.mem := rfl
@[simp] theorem setPc_fb (v : Word) : (setPc v s).fb = s.fb := rfl
@[simp] theorem setPc_keys (v : Word) : (setPc v s).keys = s.keys := rfl
@[simp] theorem setPc_rndS (v : Word) : (setPc v s).rndS = s.rndS := rfl
@[simp] theorem setPc_waitKey (v : Word) : (setPc v s).waitKey = s.waitKey := rfl
@[simp] theorem setPc_waitReg (v : Word) : (setPc v s).waitReg = s.waitReg := rfl
@[simp] theorem setPc_fsm (v : Word) : (setPc v s).fsm = s.fsm := rfl
@[simp] theorem setPc_fault (v : Word) : (setPc v s).fault = s.fault := rfl
@[simp] theorem setPc_report (v : Word) : (setPc v s).report = s.report := rfl
@[simp] theorem setPc_frame (v : Word) : (setPc v s).frame = s.frame := rfl
@[simp] theorem setPc_decodeFail (v : Word) : (setPc v s).decodeFail = s.decodeFail := rfl
@[simp] theorem setPc_params (v : Word) : (setPc v s).params = s.params := rfl
@[simp] theorem setPc_pending (v : Word) : (setPc v s).pending = s.pending := rfl
@[simp] theorem setPc_draws (v : Word) : (setPc v s).draws = s.draws := rfl

/-! ### next -/
@[simp] theorem next_V : (next s).V = s.V := rfl
@[simp] theorem next_I : (next s).I = s.I := rfl
@[simp] theorem next_pc : (next s).pc = s.pc + 2 := rfl
@[simp] theorem next_stack : (next s).stack = s.stack := rfl
@[simp] theorem next_sp : (next s).sp = s.sp := rfl
@[simp] theorem next_DT : (next s).DT = s.DT := rfl
@[simp] theorem next_ST : (next s).ST = s.ST := rfl
@[simp] theorem next_mem : (next s).mem = s.mem := rfl
@[simp] theorem next_fb : (next s).fb = s.fb := rfl
@[simp] theorem next_keys : (next s).keys = s.keys := rfl
@[simp] theorem next_rndS : (next s).rndS = s.rndS := rfl
@[simp] theorem next_waitKey : (next s).waitKey = s.waitKey := rfl
@[simp] theorem next_waitReg : (next s).waitReg = s.waitReg := rfl
@[simp] theorem next_fsm : (next s).fsm = s.fsm := rfl
@[simp] theorem next_fault : (next s).fault = s.fault := rfl
@[simp] theorem next_report : (next s).report = s.report := rfl
@[simp] theorem next_frame : (next s).frame = s.frame := rfl
@[simp] theorem next_decodeFail : (next s).decodeFail = s.decodeFail := rfl
@[simp] theorem next_params : (next s).params = s.params := rfl
@[simp] theorem next_pending : (next s).pending = s.pending := rfl
@[simp] theorem next_draws : (next s).draws = s.draws := rfl

/-! ### skipIf -/
@[simp] theorem skipIf_V (c : Bool) : (skipIf c s).V = s.V := rfl
@[simp] theorem skipIf_I (c : Bool) : (skipIf c s).I = s.I := rfl
@[simp] theorem skipIf_pc (c : Bool) : (skipIf c s).pc = if c then s.pc + 4 else s.pc + 2 := rfl
@[simp] theorem skipIf_stack (c : Bool) : (skipIf c s).stack = s.stack := rfl
@[simp] theorem skipIf_sp (c : Bool) : (skipIf c s).sp = s.sp := rfl
@[simp] theorem skipIf_DT (c : Bool) : (skipIf c s).DT = s.DT := rfl
@[simp] theorem skipIf_ST (c : Bool) : (skipIf c s).ST = s.ST := rfl
@[simp] theorem skipIf_mem (c : Bool) : (skipIf c s).mem = s.mem := rfl
@[simp] theorem skipIf_fb (c : Bool) : (skipIf c s).fb = s.fb := rfl
@[simp] theorem skipIf_keys (c : Bool) : (skipIf c s).keys = s.keys := rfl
@[simp] theorem skipIf_rndS (c : Bool) : (skipIf c s).rndS = s.rndS := rfl
@[simp] theorem skipIf_waitKey (c : Bool) : (skipIf c s).waitKey = s.waitKey := rfl
@[simp] theorem skipIf_waitReg (c : Bool) : (skipIf c s).waitReg = s.waitReg := rfl
@[simp] theorem skipIf_fsm (c : Bool) : (skipIf c s).fsm = s.fsm := rfl
@[simp] theorem skipIf_fault (c : Bool) : (skipIf c s).fault = s.fault := rfl
@[simp] theorem skipIf_report (c : Bool) : (skipIf c s).report = s.report := rfl
@[simp] theorem skipIf_frame (c : Bool) : (skipIf c s).frame = s.frame := rfl
@[simp] theorem skipIf_decodeFail (c : Bool) : (skipIf c s).decodeFail = s.decodeFail := rfl
@[simp] theorem skipIf_params (c : Bool) : (skipIf c s).params = s.params := rfl
@[simp] theorem skipIf_pending (c : Bool) : (skipIf c s).pending = s.pending := rfl
@[simp] theorem skipIf_draws (c : Bool) : (skipIf c s).draws = s.draws := rfl

/-! ### setDT -/
@[simp] theorem setDT_V (v : Byte) : (setDT v s).V = s.V := rfl
@[simp] theorem setDT_I (v : Byte) : (setDT v s).I = s.I := rfl
@[simp] theorem setDT_pc (v : Byte) : (setDT v s).pc = s.pc := rfl
@[simp] theorem setDT_stack (v : Byte) : (setDT v s).stack = s.stack := rfl
@[simp] theorem setDT_sp (v : Byte) : (setDT v s).sp = s.sp := rfl
@[simp] theorem setDT_DT (v : Byte) : (setDT v s).DT = v := rfl
@[simp] theorem setDT_ST (v : Byte) : (setDT v s).ST = s.ST := rfl
@[simp] theorem setDT_mem (v : Byte) : (setDT v s).mem = s.mem := rfl
@[simp] theorem setDT_fb (v : Byte) : (setDT v s).fb = s.fb := rfl
@[simp] theorem setDT_keys (v : Byte) : (setDT v s).keys = s.keys := rfl
@[simp] theorem setDT_rndS (v : Byte) : (setDT v s).rndS = s.rndS := rfl
@[simp] theorem setDT_waitKey (v : Byte) : (setDT v s).waitKey = s.waitKey := rfl
@[simp] theorem setDT_waitReg (v : Byte) : (setDT v s).waitReg = s.waitReg := rfl
@[simp] theorem setDT_fsm (v : Byte) : (setDT v s).fsm = s.fsm := rfl
@[simp] theorem setDT_fault (v : Byte) : (setDT v s).fault = s.fault := rfl
@[simp] theorem setDT_report (v : Byte) : (setDT v s).report = s.report := rfl
@[simp] theorem setDT_frame (v : Byte) : (setDT v s).frame = s.frame := rfl
@[simp] theorem setDT_decodeFail (v : Byte) : (setDT v s).decodeFail = s.decodeFail := rfl
@[simp] theorem setDT_params (v : Byte) : (setDT v s).params = s.params := rfl
@[simp] theorem setDT_pending (v : Byte) : (setDT v s).pending = s.pending := rfl
@[simp] theorem setDT_draws (v : Byte) : (setDT v s).draws = s.draws := rfl

/-! ### setST -/
@[simp] theorem setST_V (v : Byte) : (setST v s).V = s.V := rfl
@[simp] theorem setST_I (v : Byte) : (setST v s).I = s.I := rfl
@[simp] theorem setST_pc (v : Byte) : (setST v s).pc = s.pc := rfl
@[simp] theorem setST_stack (v : Byte) : (setST v s).stack = s.stack := rfl
@[simp] theorem setST_sp (v : Byte) : (setST v s).sp = s.sp := rfl
@[simp] theorem setST_DT (v : Byte) : (setST v s).DT = s.DT := rfl
@[simp] theorem setST_ST (v : Byte) : (setST v s).ST = v := rfl
@[simp] theorem setST_mem (v : Byte) : (setST v s).mem = s.mem := rfl
@[simp] theorem setST_fb (v : Byte) : (setST v s).fb = s.fb := rfl
@[simp] theorem setST_keys (v : Byte) : (setST v s).keys = s.keys := rfl
@[simp] theorem setST_rndS (v : Byte) : (setST v s).rndS = s.rndS := rfl
@[simp] theorem setST_waitKey (v : Byte) : (setST v s).waitKey = s.waitKey := rfl
@[simp] theorem setST_waitReg (v : Byte) : (setST v s).waitReg = s.waitReg := rfl
@[simp] theorem setST_fsm (v : Byte) : (setST v s).fsm = s.fsm := rfl
@[simp] theorem setST_fault (v : Byte) : (setST v s).fault = s.fault := rfl
@[simp] theorem setST_report (v : Byte) : (setST v s).report = s.report := rfl
@[simp] theorem setST_frame (v : Byte) : (setST v s).frame = s.frame := rfl
@[simp] theorem setST_decodeFail (v : Byte) : (setST v s).decodeFail = s.decodeFail := rfl
@[simp] theorem setST_params (v : Byte) : (setST v s).params = s.params := rfl
@[simp] theorem setST_pending (v : Byte) : (setST v s).pending = s.pending := rfl
@[simp] theorem setST_draws (v : Byte) : (setST v s).draws = s.draws := rfl

/-! ### setMem -/
@[simp] theorem setMem_V (m : Memory) : (setMem m s).V = s.V := rfl
@[simp] theorem setMem_I (m : Memory) : (setMem m s).I = s.I := rfl
@[simp] theorem setMem_pc (m : Memory) : (setMem m s).pc = s.pc := rfl
@[simp] theorem setMem_stack (m : Memory) : (setMem m s).stack = s.stack := rfl
@[simp] theorem setMem_sp (m : Memory) : (setMem m s).sp = s.sp := rfl
@[simp] theorem setMem_DT (m : Memory) : (setMem m s).DT = s.DT := rfl
@[simp] theorem setMem_ST (m : Memory) : (setMem m s).ST = s.ST := rfl
@[simp] theorem setMem_mem (m : Memory) : (setMem m s).mem = m := rfl
@[simp] theorem setMem_fb (m : Memory) : (setMem m s).fb = s.fb := rfl
@[simp] theorem setMem_keys (m : Memory) : (setMem m s).keys = s.keys := rfl
@[simp] theorem setMem_rndS (m : Memory) : (setMem m s).rndS = s.rndS := rfl
@[simp] theorem setMem_waitKey (m : Memory) : (setMem m s).waitKey = s.waitKey := rfl
@[simp] theorem setMem_waitReg (m : Memory) : (setMem m s).waitReg = s.waitReg := rfl
@[simp] theorem setMem_fsm (m : Memory) : (setMem m s).fsm = s.fsm := rfl
@[simp] theorem setMem_fault (m : Memory) : (setMem m s).fault = s.fault := rfl
@[simp] theorem setMem_report (m : Memory) : (setMem m s).report = s.report := rfl
@[simp] theorem setMem_frame (m : Memory) : (setMem m s).frame = s.frame := rfl
@[simp] theorem setMem_decodeFail (m : Memory) : (setMem m s).decodeFail = s.decodeFail := rfl
@[simp] theorem setMem_params (m : Memory) : (setMem m s).params = s.params := rfl
@[simp] theorem setMem_pending (m : Memory) : (setMem m s).pending = s.pending := rfl
@[simp] theorem setMem_draws (m : Memory) : (setMem m s).draws = s.draws := rfl

/-! ### setFb -/
@[simp] theorem setFb_V (f : Framebuffer) : (setFb f s).V = s.V := rfl
@[simp] theorem setFb_I (f : Framebuffer) : (setFb f s).I = s.I := rfl
@[simp] theorem setFb_pc (f : Framebuffer) : (setFb f s).pc = s.pc := rfl
@[simp] theorem setFb_stack (f : Framebuffer) : (setFb f s).stack = s.stack := rfl
@[simp] theorem setFb_sp (f : Framebuffer) : (setFb f s).sp = s.sp := rfl
@[simp] theorem setFb_DT (f : Framebuffer) : (setFb f s).DT = s.DT := rfl
@[simp] theorem setFb_ST (f : Framebuffer) : (setFb f s).ST = s.ST := rfl
@[simp] theorem setFb_mem (f : Framebuffer) : (setFb f s).mem = s.mem := rfl
@[simp] theorem setFb_fb (f : Framebuffer) : (setFb f s).fb = f := rfl
@[simp] theorem setFb_keys (f : Framebuffer) : (setFb f s).keys = s.keys := rfl
@[simp] theorem setFb_rndS (f : Framebuffer) : (setFb f s).rndS = s.rndS := rfl
@[simp] theorem setFb_waitKey (f : Framebuffer) : (setFb f s).waitKey = s.waitKey := rfl
@[simp] theorem setFb_waitReg (f : Framebuffer) : (setFb f s).waitReg = s.waitReg := rfl
@[simp] theorem setFb_fsm (f : Framebuffer) : (setFb f s).fsm = s.fsm := rfl
@[simp] theorem setFb_fault (f : Framebuffer) : (setFb f s).fault = s.fault := rfl
@[simp] theorem setFb_report (f : Framebuffer) : (setFb f s).report = s.report := rfl
@[simp] theorem setFb_frame (f : Framebuffer) : (setFb f s).frame = s.frame := rfl
@[simp] theorem setFb_decodeFail (f : Framebuffer) : (setFb f s).decodeFail = s.decodeFail := rfl
@[simp] theorem setFb_params (f : Framebuffer) : (setFb f s).params = s.params := rfl
@[simp] theorem setFb_pending (f : Framebuffer) : (setFb f s).pending = s.pending := rfl
@[simp] theorem setFb_draws (f : Framebuffer) : (setFb f s).draws = s.draws := rfl

/-! ### startWait -/
@[simp] theorem startWait_V (x : Nibble) : (startWait x s).V = s.V := rfl
@[simp] theorem startWait_I (x : Nibble) : (startWait x s).I = s.I := rfl
@[simp] theorem startWait_pc (x : Nibble) : (startWait x s).pc = s.pc := rfl
@[simp] theorem startWait_stack (x : Nibble) : (startWait x s).stack = s.stack := rfl
@[simp] theorem startWait_sp (x : Nibble) : (startWait x s).sp = s.sp := rfl
@[simp] theorem startWait_DT (x : Nibble) : (startWait x s).DT = s.DT := rfl
@[simp] theorem startWait_ST (x : Nibble) : (startWait x s).ST = s.ST := rfl
@[simp] theorem startWait_mem (x : Nibble) : (startWait x s).mem = s.mem := rfl
@[simp] theorem startWait_fb (x : Nibble) : (startWait x s).fb = s.fb := rfl
@[simp] theorem startWait_keys (x : Nibble) : (startWait x s).keys = s.keys := rfl
@[simp] theorem startWait_rndS (x : Nibble) : (startWait x s).rndS = s.rndS := rfl
@[simp] theorem startWait_waitKey (x : Nibble) : (startWait x s).waitKey = true := rfl
@[simp] theorem startWait_waitReg (x : Nibble) : (startWait x s).waitReg = x := rfl
@[simp] theorem startWait_fsm (x : Nibble) : (startWait x s).fsm = .waitingForKey := rfl
@[simp] theorem startWait_fault (x : Nibble) : (startWait x s).fault = s.fault := rfl
@[simp] theorem startWait_report (x : Nibble) : (startWait x s).report = s.report := rfl
@[simp] theorem startWait_frame (x : Nibble) : (startWait x s).frame = s.frame := rfl
@[simp] theorem startWait_decodeFail (x : Nibble) : (startWait x s).decodeFail = s.decodeFail := rfl
@[simp] theorem startWait_params (x : Nibble) : (startWait x s).params = s.params := rfl
@[simp] theorem startWait_pending (x : Nibble) : (startWait x s).pending = s.pending := rfl
@[simp] theorem startWait_draws (x : Nibble) : (startWait x s).draws = s.draws := rfl

/-! ### endWait -/
@[simp] theorem endWait_V : (endWait s).V = s.V := rfl
@[simp] theorem endWait_I : (endWait s).I = s.I := rfl
@[simp] theorem endWait_pc : (endWait s).pc = s.pc := rfl
@[simp] theorem endWait_stack : (endWait s).stack = s.stack := rfl
@[simp] theorem endWait_sp : (endWait s).sp = s.sp := rfl
@[simp] theorem endWait_DT : (endWait s).DT = s.DT := rfl
@[simp] theorem endWait_ST : (endWait s).ST = s.ST := rfl
@[simp] theorem endWait_mem : (endWait s).mem = s.mem := rfl
@[simp] theorem endWait_fb : (endWait s).fb = s.fb := rfl
@[simp] theorem endWait_keys : (endWait s).keys = s.keys := rfl
@[simp] theorem endWait_rndS : (endWait s).rndS = s.rndS := rfl
@[simp] theorem endWait_waitKey : (endWait s).waitKey = false := rfl
@[simp] theorem endWait_waitReg : (endWait s).waitReg = s.waitReg := rfl
@[simp] theorem endWait_fsm : (endWait s).fsm = .running := rfl
@[simp] theorem endWait_fault : (endWait s).fault = s.fault := rfl
@[simp] theorem endWait_report : (endWait s).report = s.report := rfl
@[simp] theorem endWait_frame : (endWait s).frame = s.frame := rfl
@[simp] theorem endWait_decodeFail : (endWait s).decodeFail = s.decodeFail := rfl
@[simp] theorem endWait_params : (endWait s).params = s.params := rfl
@[simp] theorem endWait_pending : (endWait s).pending = s.pending := rfl
@[simp] theorem endWait_draws : (endWait s).draws = s.draws := rfl

/-! ### raiseFault -/
@[simp] theorem raiseFault_V (c : FaultCause) (a : Nat) (w : Word) : (raiseFault c a w s).V = s.V := rfl
@[simp] theorem raiseFault_I (c : FaultCause) (a : Nat) (w : Word) : (raiseFault c a w s).I = s.I := rfl
@[simp] theorem raiseFault_pc (c : FaultCause) (a : Nat) (w : Word) : (raiseFault c a w s).pc = s.pc := rfl
@[simp] theorem raiseFault_stack (c : FaultCause) (a : Nat) (w : Word) : (raiseFault c a w s).stack = s.stack := rfl
@[simp] theorem raiseFault_sp (c : FaultCause) (a : Nat) (w : Word) : (raiseFault c a w s).sp = s.sp := rfl
@[simp] theorem raiseFault_DT (c : FaultCause) (a : Nat) (w : Word) : (raiseFault c a w s).DT = s.DT := rfl
@[simp] theorem raiseFault_ST (c : FaultCause) (a : Nat) (w : Word) : (raiseFault c a w s).ST = s.ST := rfl
@[simp] theorem raiseFault_mem (c : FaultCause) (a : Nat) (w : Word) : (raiseFault c a w s).mem = s.mem := rfl
@[simp] theorem raiseFault_fb (c : FaultCause) (a : Nat) (w : Word) : (raiseFault c a w s).fb = s.fb := rfl
@[simp] theorem raiseFault_keys (c : FaultCause) (a : Nat) (w : Word) : (raiseFault c a w s).keys = s.keys := rfl
@[simp] theorem raiseFault_rndS (c : FaultCause) (a : Nat) (w : Word) : (raiseFault c a w s).rndS = s.rndS := rfl
@[simp] theorem raiseFault_waitKey (c : FaultCause) (a : Nat) (w : Word) : (raiseFault c a w s).waitKey = s.waitKey := rfl
@[simp] theorem raiseFault_waitReg (c : FaultCause) (a : Nat) (w : Word) : (raiseFault c a w s).waitReg = s.waitReg := rfl
@[simp] theorem raiseFault_fsm (c : FaultCause) (a : Nat) (w : Word) : (raiseFault c a w s).fsm = .faulted := rfl
@[simp] theorem raiseFault_fault (c : FaultCause) (a : Nat) (w : Word) : (raiseFault c a w s).fault = { cause := c, pc := s.pc, sp := s.sp, addr := BitVec.ofNat 17 a, word := w } := rfl
@[simp] theorem raiseFault_report (c : FaultCause) (a : Nat) (w : Word) : (raiseFault c a w s).report = s.report := rfl
@[simp] theorem raiseFault_frame (c : FaultCause) (a : Nat) (w : Word) : (raiseFault c a w s).frame = s.frame := rfl
@[simp] theorem raiseFault_decodeFail (c : FaultCause) (a : Nat) (w : Word) : (raiseFault c a w s).decodeFail = s.decodeFail := rfl
@[simp] theorem raiseFault_params (c : FaultCause) (a : Nat) (w : Word) : (raiseFault c a w s).params = s.params := rfl
@[simp] theorem raiseFault_pending (c : FaultCause) (a : Nat) (w : Word) : (raiseFault c a w s).pending = s.pending := rfl
@[simp] theorem raiseFault_draws (c : FaultCause) (a : Nat) (w : Word) : (raiseFault c a w s).draws = s.draws := rfl

/-! ### clearStrobes -/
@[simp] theorem clearStrobes_V : (clearStrobes s).V = s.V := rfl
@[simp] theorem clearStrobes_I : (clearStrobes s).I = s.I := rfl
@[simp] theorem clearStrobes_pc : (clearStrobes s).pc = s.pc := rfl
@[simp] theorem clearStrobes_stack : (clearStrobes s).stack = s.stack := rfl
@[simp] theorem clearStrobes_sp : (clearStrobes s).sp = s.sp := rfl
@[simp] theorem clearStrobes_DT : (clearStrobes s).DT = s.DT := rfl
@[simp] theorem clearStrobes_ST : (clearStrobes s).ST = s.ST := rfl
@[simp] theorem clearStrobes_mem : (clearStrobes s).mem = s.mem := rfl
@[simp] theorem clearStrobes_fb : (clearStrobes s).fb = s.fb := rfl
@[simp] theorem clearStrobes_keys : (clearStrobes s).keys = s.keys := rfl
@[simp] theorem clearStrobes_rndS : (clearStrobes s).rndS = s.rndS := rfl
@[simp] theorem clearStrobes_waitKey : (clearStrobes s).waitKey = s.waitKey := rfl
@[simp] theorem clearStrobes_waitReg : (clearStrobes s).waitReg = s.waitReg := rfl
@[simp] theorem clearStrobes_fsm : (clearStrobes s).fsm = s.fsm := rfl
@[simp] theorem clearStrobes_fault : (clearStrobes s).fault = s.fault := rfl
@[simp] theorem clearStrobes_report : (clearStrobes s).report = s.report := rfl
@[simp] theorem clearStrobes_frame : (clearStrobes s).frame = false := rfl
@[simp] theorem clearStrobes_decodeFail : (clearStrobes s).decodeFail = false := rfl
@[simp] theorem clearStrobes_params : (clearStrobes s).params = s.params := rfl
@[simp] theorem clearStrobes_pending : (clearStrobes s).pending = s.pending := rfl
@[simp] theorem clearStrobes_draws : (clearStrobes s).draws = s.draws := rfl

/-! ### endStep -/
@[simp] theorem endStep_V : (endStep s).V = s.V := rfl
@[simp] theorem endStep_I : (endStep s).I = s.I := rfl
@[simp] theorem endStep_pc : (endStep s).pc = s.pc := rfl
@[simp] theorem endStep_stack : (endStep s).stack = s.stack := rfl
@[simp] theorem endStep_sp : (endStep s).sp = s.sp := rfl
@[simp] theorem endStep_DT : (endStep s).DT = s.DT := rfl
@[simp] theorem endStep_ST : (endStep s).ST = s.ST := rfl
@[simp] theorem endStep_mem : (endStep s).mem = s.mem := rfl
@[simp] theorem endStep_fb : (endStep s).fb = s.fb := rfl
@[simp] theorem endStep_keys : (endStep s).keys = s.keys := rfl
@[simp] theorem endStep_rndS : (endStep s).rndS = s.rndS := rfl
@[simp] theorem endStep_waitKey : (endStep s).waitKey = s.waitKey := rfl
@[simp] theorem endStep_waitReg : (endStep s).waitReg = s.waitReg := rfl
@[simp] theorem endStep_fsm : (endStep s).fsm = s.fsm := rfl
@[simp] theorem endStep_fault : (endStep s).fault = s.fault := rfl
@[simp] theorem endStep_report : (endStep s).report = s.report := rfl
@[simp] theorem endStep_frame : (endStep s).frame = s.fsm.live := rfl
@[simp] theorem endStep_decodeFail : (endStep s).decodeFail = s.decodeFail := rfl
@[simp] theorem endStep_params : (endStep s).params = s.params := rfl
@[simp] theorem endStep_pending : (endStep s).pending = s.pending := rfl
@[simp] theorem endStep_draws : (endStep s).draws = s.draws := rfl

/-! ### setFsm -/
@[simp] theorem setFsm_V (f : Fsm) : (setFsm f s).V = s.V := rfl
@[simp] theorem setFsm_I (f : Fsm) : (setFsm f s).I = s.I := rfl
@[simp] theorem setFsm_pc (f : Fsm) : (setFsm f s).pc = s.pc := rfl
@[simp] theorem setFsm_stack (f : Fsm) : (setFsm f s).stack = s.stack := rfl
@[simp] theorem setFsm_sp (f : Fsm) : (setFsm f s).sp = s.sp := rfl
@[simp] theorem setFsm_DT (f : Fsm) : (setFsm f s).DT = s.DT := rfl
@[simp] theorem setFsm_ST (f : Fsm) : (setFsm f s).ST = s.ST := rfl
@[simp] theorem setFsm_mem (f : Fsm) : (setFsm f s).mem = s.mem := rfl
@[simp] theorem setFsm_fb (f : Fsm) : (setFsm f s).fb = s.fb := rfl
@[simp] theorem setFsm_keys (f : Fsm) : (setFsm f s).keys = s.keys := rfl
@[simp] theorem setFsm_rndS (f : Fsm) : (setFsm f s).rndS = s.rndS := rfl
@[simp] theorem setFsm_waitKey (f : Fsm) : (setFsm f s).waitKey = s.waitKey := rfl
@[simp] theorem setFsm_waitReg (f : Fsm) : (setFsm f s).waitReg = s.waitReg := rfl
@[simp] theorem setFsm_fsm (f : Fsm) : (setFsm f s).fsm = f := rfl
@[simp] theorem setFsm_fault (f : Fsm) : (setFsm f s).fault = s.fault := rfl
@[simp] theorem setFsm_report (f : Fsm) : (setFsm f s).report = s.report := rfl
@[simp] theorem setFsm_frame (f : Fsm) : (setFsm f s).frame = s.frame := rfl
@[simp] theorem setFsm_decodeFail (f : Fsm) : (setFsm f s).decodeFail = s.decodeFail := rfl
@[simp] theorem setFsm_params (f : Fsm) : (setFsm f s).params = s.params := rfl
@[simp] theorem setFsm_pending (f : Fsm) : (setFsm f s).pending = s.pending := rfl
@[simp] theorem setFsm_draws (f : Fsm) : (setFsm f s).draws = s.draws := rfl

/-! ### reportFailure -/
@[simp] theorem reportFailure_V (w : Word) : (reportFailure w s).V = s.V := rfl
@[simp] theorem reportFailure_I (w : Word) : (reportFailure w s).I = s.I := rfl
@[simp] theorem reportFailure_pc (w : Word) : (reportFailure w s).pc = s.pc := rfl
@[simp] theorem reportFailure_stack (w : Word) : (reportFailure w s).stack = s.stack := rfl
@[simp] theorem reportFailure_sp (w : Word) : (reportFailure w s).sp = s.sp := rfl
@[simp] theorem reportFailure_DT (w : Word) : (reportFailure w s).DT = s.DT := rfl
@[simp] theorem reportFailure_ST (w : Word) : (reportFailure w s).ST = s.ST := rfl
@[simp] theorem reportFailure_mem (w : Word) : (reportFailure w s).mem = s.mem := rfl
@[simp] theorem reportFailure_fb (w : Word) : (reportFailure w s).fb = s.fb := rfl
@[simp] theorem reportFailure_keys (w : Word) : (reportFailure w s).keys = s.keys := rfl
@[simp] theorem reportFailure_rndS (w : Word) : (reportFailure w s).rndS = s.rndS := rfl
@[simp] theorem reportFailure_waitKey (w : Word) : (reportFailure w s).waitKey = s.waitKey := rfl
@[simp] theorem reportFailure_waitReg (w : Word) : (reportFailure w s).waitReg = s.waitReg := rfl
@[simp] theorem reportFailure_fsm (w : Word) : (reportFailure w s).fsm = s.fsm := rfl
@[simp] theorem reportFailure_fault (w : Word) : (reportFailure w s).fault = s.fault := rfl
@[simp] theorem reportFailure_report (w : Word) : (reportFailure w s).report = { badWord := w, badPc := s.pc } := rfl
@[simp] theorem reportFailure_frame (w : Word) : (reportFailure w s).frame = s.frame := rfl
@[simp] theorem reportFailure_decodeFail (w : Word) : (reportFailure w s).decodeFail = true := rfl
@[simp] theorem reportFailure_params (w : Word) : (reportFailure w s).params = s.params := rfl
@[simp] theorem reportFailure_pending (w : Word) : (reportFailure w s).pending = s.pending := rfl
@[simp] theorem reportFailure_draws (w : Word) : (reportFailure w s).draws = s.draws := rfl

/-! ### setPending -/
@[simp] theorem setPending_V (r : List Event) : (setPending r s).V = s.V := rfl
@[simp] theorem setPending_I (r : List Event) : (setPending r s).I = s.I := rfl
@[simp] theorem setPending_pc (r : List Event) : (setPending r s).pc = s.pc := rfl
@[simp] theorem setPending_stack (r : List Event) : (setPending r s).stack = s.stack := rfl
@[simp] theorem setPending_sp (r : List Event) : (setPending r s).sp = s.sp := rfl
@[simp] theorem setPending_DT (r : List Event) : (setPending r s).DT = s.DT := rfl
@[simp] theorem setPending_ST (r : List Event) : (setPending r s).ST = s.ST := rfl
@[simp] theorem setPending_mem (r : List Event) : (setPending r s).mem = s.mem := rfl
@[simp] theorem setPending_fb (r : List Event) : (setPending r s).fb = s.fb := rfl
@[simp] theorem setPending_keys (r : List Event) : (setPending r s).keys = s.keys := rfl
@[simp] theorem setPending_rndS (r : List Event) : (setPending r s).rndS = s.rndS := rfl
@[simp] theorem setPending_waitKey (r : List Event) : (setPending r s).waitKey = s.waitKey := rfl
@[simp] theorem setPending_waitReg (r : List Event) : (setPending r s).waitReg = s.waitReg := rfl
@[simp] theorem setPending_fsm (r : List Event) : (setPending r s).fsm = s.fsm := rfl
@[simp] theorem setPending_fault (r : List Event) : (setPending r s).fault = s.fault := rfl
@[simp] theorem setPending_report (r : List Event) : (setPending r s).report = s.report := rfl
@[simp] theorem setPending_frame (r : List Event) : (setPending r s).frame = s.frame := rfl
@[simp] theorem setPending_decodeFail (r : List Event) : (setPending r s).decodeFail = s.decodeFail := rfl
@[simp] theorem setPending_params (r : List Event) : (setPending r s).params = s.params := rfl
@[simp] theorem setPending_pending (r : List Event) : (setPending r s).pending = r := rfl
@[simp] theorem setPending_draws (r : List Event) : (setPending r s).draws = s.draws := rfl

/-! ### countDraw -/
@[simp] theorem countDraw_V : (countDraw s).V = s.V := rfl
@[simp] theorem countDraw_I : (countDraw s).I = s.I := rfl
@[simp] theorem countDraw_pc : (countDraw s).pc = s.pc := rfl
@[simp] theorem countDraw_stack : (countDraw s).stack = s.stack := rfl
@[simp] theorem countDraw_sp : (countDraw s).sp = s.sp := rfl
@[simp] theorem countDraw_DT : (countDraw s).DT = s.DT := rfl
@[simp] theorem countDraw_ST : (countDraw s).ST = s.ST := rfl
@[simp] theorem countDraw_mem : (countDraw s).mem = s.mem := rfl
@[simp] theorem countDraw_fb : (countDraw s).fb = s.fb := rfl
@[simp] theorem countDraw_keys : (countDraw s).keys = s.keys := rfl
@[simp] theorem countDraw_rndS : (countDraw s).rndS = s.rndS := rfl
@[simp] theorem countDraw_waitKey : (countDraw s).waitKey = s.waitKey := rfl
@[simp] theorem countDraw_waitReg : (countDraw s).waitReg = s.waitReg := rfl
@[simp] theorem countDraw_fsm : (countDraw s).fsm = s.fsm := rfl
@[simp] theorem countDraw_fault : (countDraw s).fault = s.fault := rfl
@[simp] theorem countDraw_report : (countDraw s).report = s.report := rfl
@[simp] theorem countDraw_frame : (countDraw s).frame = s.frame := rfl
@[simp] theorem countDraw_decodeFail : (countDraw s).decodeFail = s.decodeFail := rfl
@[simp] theorem countDraw_params : (countDraw s).params = s.params := rfl
@[simp] theorem countDraw_pending : (countDraw s).pending = s.pending := rfl
@[simp] theorem countDraw_draws : (countDraw s).draws = s.draws + 1 := rfl

/-! ### sampleInputs -/
@[simp] theorem sampleInputs_V (k : Word) (r : Byte) : (sampleInputs k r s).V = s.V := rfl
@[simp] theorem sampleInputs_I (k : Word) (r : Byte) : (sampleInputs k r s).I = s.I := rfl
@[simp] theorem sampleInputs_pc (k : Word) (r : Byte) : (sampleInputs k r s).pc = s.pc := rfl
@[simp] theorem sampleInputs_stack (k : Word) (r : Byte) : (sampleInputs k r s).stack = s.stack := rfl
@[simp] theorem sampleInputs_sp (k : Word) (r : Byte) : (sampleInputs k r s).sp = s.sp := rfl
@[simp] theorem sampleInputs_DT (k : Word) (r : Byte) : (sampleInputs k r s).DT = s.DT := rfl
@[simp] theorem sampleInputs_ST (k : Word) (r : Byte) : (sampleInputs k r s).ST = s.ST := rfl
@[simp] theorem sampleInputs_mem (k : Word) (r : Byte) : (sampleInputs k r s).mem = s.mem := rfl
@[simp] theorem sampleInputs_fb (k : Word) (r : Byte) : (sampleInputs k r s).fb = s.fb := rfl
@[simp] theorem sampleInputs_keys (k : Word) (r : Byte) : (sampleInputs k r s).keys = k := rfl
@[simp] theorem sampleInputs_rndS (k : Word) (r : Byte) : (sampleInputs k r s).rndS = r := rfl
@[simp] theorem sampleInputs_waitKey (k : Word) (r : Byte) : (sampleInputs k r s).waitKey = s.waitKey := rfl
@[simp] theorem sampleInputs_waitReg (k : Word) (r : Byte) : (sampleInputs k r s).waitReg = s.waitReg := rfl
@[simp] theorem sampleInputs_fsm (k : Word) (r : Byte) : (sampleInputs k r s).fsm = s.fsm := rfl
@[simp] theorem sampleInputs_fault (k : Word) (r : Byte) : (sampleInputs k r s).fault = s.fault := rfl
@[simp] theorem sampleInputs_report (k : Word) (r : Byte) : (sampleInputs k r s).report = s.report := rfl
@[simp] theorem sampleInputs_frame (k : Word) (r : Byte) : (sampleInputs k r s).frame = s.frame := rfl
@[simp] theorem sampleInputs_decodeFail (k : Word) (r : Byte) : (sampleInputs k r s).decodeFail = s.decodeFail := rfl
@[simp] theorem sampleInputs_params (k : Word) (r : Byte) : (sampleInputs k r s).params = s.params := rfl
@[simp] theorem sampleInputs_pending (k : Word) (r : Byte) : (sampleInputs k r s).pending = s.pending := rfl
@[simp] theorem sampleInputs_draws (k : Word) (r : Byte) : (sampleInputs k r s).draws = s.draws := rfl

end Sys2Proof.Machine
end

