-- ==== Sys2Proof/Laws/Ops.lean ====
section
/-! SUPPORT. One specification lemma for each shared operation: what it answers, and when. -/

namespace Sys2Proof.Machine

/-! ### Range check (R53, R54) -/

theorem firstOutOfRange_eq_none {base len : Nat} : firstOutOfRange base len = none ↔ len = 0 ∨ base + len ≤ 0x1000 := by
  unfold firstOutOfRange
  split <;> simp <;> omega

theorem firstOutOfRange_eq_some {base len a : Nat} :
    firstOutOfRange base len = some a ↔ 0 < len ∧ 0x1000 < base + len ∧ a = max base 0x1000 := by
  unfold firstOutOfRange
  split <;> simp <;> omega

/-! ### Zero extension (R9) -/

@[simp] theorem toNat_zextByte (b : Byte) : (zextByte b).toNat = b.toNat := by
  have := b.isLt
  simp only [zextByte, BitVec.toNat_setWidth]
  omega

@[simp] theorem toNat_zextAddr (a : Addr12) : (zextAddr a).toNat = a.toNat := by
  have := a.isLt
  simp only [zextAddr, BitVec.toNat_setWidth]
  omega

/-! ### Registers (R20) -/

@[simp] theorem readV_setV_self (x : Nibble) (b : Byte) (s : State) : readV (setV x b s) x = b := by
  simp [readV]

theorem readV_setV_ne {x y : Nibble} (h : y ≠ x) (b : Byte) (s : State) : readV (setV x b s) y = readV s y := by
  have : x.toNat ≠ y.toNat := fun he => h (BitVec.eq_of_toNat_eq he.symm)
  simp [readV, this]

theorem readV_setV (x y : Nibble) (b : Byte) (s : State) : readV (setV x b s) y = if y = x then b else readV s y := by
  by_cases h : y = x
  · subst h; simp
  · simp [h, readV_setV_ne h]

@[simp] theorem readV_setI (s : State) (x : Nibble) (v : Word) : readV (setI v s) x = readV s x := rfl
@[simp] theorem readV_setPc (s : State) (x : Nibble) (v : Word) : readV (setPc v s) x = readV s x := rfl
@[simp] theorem readV_next (s : State) (x : Nibble) : readV (next s) x = readV s x := rfl
@[simp] theorem readV_skipIf (s : State) (x : Nibble) (c : Bool) : readV (skipIf c s) x = readV s x := rfl
@[simp] theorem readV_setDT (s : State) (x : Nibble) (v : Byte) : readV (setDT v s) x = readV s x := rfl
@[simp] theorem readV_setST (s : State) (x : Nibble) (v : Byte) : readV (setST v s) x = readV s x := rfl
@[simp] theorem readV_setMem (s : State) (x : Nibble) (m : Memory) : readV (setMem m s) x = readV s x := rfl
@[simp] theorem readV_setFb (s : State) (x : Nibble) (f : Framebuffer) : readV (setFb f s) x = readV s x := rfl
@[simp] theorem readV_startWait (s : State) (x : Nibble) (k : Nibble) : readV (startWait k s) x = readV s x := rfl
@[simp] theorem readV_endWait (s : State) (x : Nibble) : readV (endWait s) x = readV s x := rfl
@[simp] theorem readV_raiseFault (s : State) (x : Nibble) (c : FaultCause) (a : Nat) (w : Word) : readV (raiseFault c a w s) x = readV s x := rfl
@[simp] theorem readV_clearStrobes (s : State) (x : Nibble) : readV (clearStrobes s) x = readV s x := rfl
@[simp] theorem readV_endStep (s : State) (x : Nibble) : readV (endStep s) x = readV s x := rfl
@[simp] theorem readV_setFsm (s : State) (x : Nibble) (f : Fsm) : readV (setFsm f s) x = readV s x := rfl
@[simp] theorem readV_reportFailure (s : State) (x : Nibble) (w : Word) : readV (reportFailure w s) x = readV s x := rfl
@[simp] theorem readV_setPending (s : State) (x : Nibble) (r : List Event) : readV (setPending r s) x = readV s x := rfl
@[simp] theorem readV_countDraw (s : State) (x : Nibble) : readV (countDraw s) x = readV s x := rfl
@[simp] theorem readV_sampleInputs (s : State) (x : Nibble) (k : Word) (r : Byte) : readV (sampleInputs k r s) x = readV s x := rfl

theorem getElem_loadRegs (bs : List Byte) (v : Vector Byte 16) (k j : Nat) (hj : j < 16) :
    (loadRegs v k bs)[j] = if h : k ≤ j ∧ j < k + bs.length then bs[j - k]'(by omega) else v[j] := by
  induction bs generalizing v k with
  | nil =>
    rw [dif_neg (by simp)]
    rfl
  | cons b bs ih =>
    rw [loadRegs, ih]
    simp only [List.length_cons]
    by_cases h1 : k + 1 ≤ j ∧ j < k + 1 + bs.length
    · rw [dif_pos h1, dif_pos (by omega)]
      simp [show j - k = (j - (k + 1)) + 1 by omega]
    · rw [dif_neg h1]
      by_cases h2 : k = j
      · subst h2
        rw [dif_pos (by omega)]
        simp
      · rw [dif_neg (by omega), Vector.getElem_setIfInBounds_ne _ h2]

/-- A register load of `n` bytes from `I` on (R185): the registers below `n` take the bytes, the others keep theirs. -/
theorem readV_setRegs_loadRegs (s : State) (bs : List Byte) (x : Nibble) :
    readV (setRegs (loadRegs s.V 0 bs) s) x = if h : x.toNat < bs.length then bs[x.toNat] else readV s x := by
  simp only [readV, setRegs_V, getElem_loadRegs]
  by_cases h : x.toNat < bs.length <;> simp [h]

@[simp] theorem length_dumpRegs (v : Vector Byte 16) (x : Nibble) : (dumpRegs v x).length = x.toNat + 1 := by
  have := x.isLt
  simp [dumpRegs]
  omega

theorem getElem_dumpRegs (s : State) (x r : Nibble) (h : r.toNat < (dumpRegs s.V x).length) :
    (dumpRegs s.V x)[r.toNat] = readV s r := by
  simp [dumpRegs, readV]

/-! ### Stack controller (R130, R131) -/

theorem push_eq_none {v : Word} {s : State} : push v s = none ↔ s.sp = 16 := by
  have := s.sp.isLt
  unfold push
  split
  · next h => simp; intro he; rw [he] at h; exact absurd h (by decide)
  · next h => simp; apply Fin.ext; change s.sp.val = 16; omega

theorem push_eq_some {v : Word} {s t : State} : push v s = some t ↔
    ∃ h : s.sp.val < 16, t = { s with stack := s.stack.set s.sp.val v h, sp := ⟨s.sp.val + 1, Nat.succ_lt_succ h⟩ } := by
  unfold push
  split
  · next h => simp [h, eq_comm]
  · next h => simp [h]

theorem pop_eq_none {s : State} : pop s = none ↔ s.sp = 0 := by
  unfold pop
  split
  · next h => simp; intro he; rw [he] at h; exact absurd h (by decide)
  · simp; apply Fin.ext; change s.sp.val = 0; omega

theorem pop_eq_some {s t : State} {v : Word} : pop s = some (v, t) ↔
    0 < s.sp.val ∧ ∃ hd : s.sp.val - 1 < 16, v = s.stack[s.sp.val - 1] ∧
      t = { s with sp := ⟨s.sp.val - 1, Nat.lt_succ_of_lt hd⟩ } := by
  have hs := s.sp.isLt
  unfold pop
  split
  · next h =>
    simp only [Option.some.injEq, Prod.mk.injEq]
    constructor
    · rintro ⟨rfl, rfl⟩; exact ⟨h, by omega, rfl, rfl⟩
    · rintro ⟨_, _, rfl, rfl⟩; exact ⟨rfl, rfl⟩
  · next h => simp [h]

/-! ### Keys (R221, R230) -/

theorem keyOutOfRange_eq_none {k : Byte} : keyOutOfRange k = none ↔ k.toNat ≤ 0x0F := by
  unfold keyOutOfRange; split <;> simp <;> omega

theorem keyOutOfRange_eq_some {k : Byte} {a : Nat} : keyOutOfRange k = some a ↔ 0x0F < k.toNat ∧ a = k.toNat := by
  unfold keyOutOfRange; split <;> simp <;> omega

theorem lowestKey_eq_none {keys : Word} : lowestKey keys = none ↔ keys = 0 := by
  simp only [lowestKey, List.find?_eq_none, List.mem_range]
  constructor
  · intro h
    ext i hi
    have := h i hi
    simpa [← BitVec.getLsbD_eq_getElem] using this
  · rintro rfl; simp

theorem lowestKey_eq_some {keys : Word} {k : Nat} :
    lowestKey keys = some k ↔ k < 16 ∧ keys.getLsbD k = true ∧ ∀ j < k, keys.getLsbD j = false := by
  simp only [lowestKey, List.find?_range_eq_some, List.mem_range]
  simp only [Bool.not_eq_eq_eq_not, Bool.not_true]
  tauto

/-! ### Timers (R115) -/

theorem toNat_decrement (t : Byte) : (decrement t).toNat = t.toNat - 1 := by
  unfold decrement
  split
  · next h => bv_omega
  · next h => simp only [ne_eq, not_not] at h; subst h; rfl

@[simp] theorem tick_V (s : State) : (tick s).V = s.V := by unfold tick; split <;> rfl
@[simp] theorem tick_I (s : State) : (tick s).I = s.I := by unfold tick; split <;> rfl
@[simp] theorem tick_pc (s : State) : (tick s).pc = s.pc := by unfold tick; split <;> rfl
@[simp] theorem tick_stack (s : State) : (tick s).stack = s.stack := by unfold tick; split <;> rfl
@[simp] theorem tick_sp (s : State) : (tick s).sp = s.sp := by unfold tick; split <;> rfl
@[simp] theorem tick_mem (s : State) : (tick s).mem = s.mem := by unfold tick; split <;> rfl
@[simp] theorem tick_fb (s : State) : (tick s).fb = s.fb := by unfold tick; split <;> rfl
@[simp] theorem tick_keys (s : State) : (tick s).keys = s.keys := by unfold tick; split <;> rfl
@[simp] theorem tick_rndS (s : State) : (tick s).rndS = s.rndS := by unfold tick; split <;> rfl
@[simp] theorem tick_waitKey (s : State) : (tick s).waitKey = s.waitKey := by unfold tick; split <;> rfl
@[simp] theorem tick_waitReg (s : State) : (tick s).waitReg = s.waitReg := by unfold tick; split <;> rfl
@[simp] theorem tick_fsm (s : State) : (tick s).fsm = s.fsm := by unfold tick; split <;> rfl
@[simp] theorem tick_fault (s : State) : (tick s).fault = s.fault := by unfold tick; split <;> rfl
@[simp] theorem tick_report (s : State) : (tick s).report = s.report := by unfold tick; split <;> rfl
@[simp] theorem tick_frame (s : State) : (tick s).frame = s.frame := by unfold tick; split <;> rfl
@[simp] theorem tick_decodeFail (s : State) : (tick s).decodeFail = s.decodeFail := by unfold tick; split <;> rfl
@[simp] theorem tick_params (s : State) : (tick s).params = s.params := by unfold tick; split <;> rfl
@[simp] theorem tick_pending (s : State) : (tick s).pending = s.pending := by unfold tick; split <;> rfl
@[simp] theorem tick_draws (s : State) : (tick s).draws = s.draws := by unfold tick; split <;> rfl

theorem tick_DT (s : State) : (tick s).DT = if s.fsm.live then decrement s.DT else s.DT := by unfold tick; split <;> rfl
theorem tick_ST (s : State) : (tick s).ST = if s.fsm.live then decrement s.ST else s.ST := by unfold tick; split <;> rfl

/-! ### Framebuffer (R29, R202) -/

theorem pixel_togglePixel (f : Framebuffer) (px qx : Fin 64) (py qy : Fin 32) :
    pixel (togglePixel f px py) qx qy = if qx = px ∧ qy = py then !pixel f px py else pixel f qx qy := by
  unfold pixel togglePixel
  by_cases hy : qy = py
  · subst hy
    by_cases hx : qx = px
    · subst hx; simp [pixel]
    · have : px.val ≠ qx.val := fun h => hx (Fin.ext h.symm)
      simp [this, hx]
  · have : py.val ≠ qy.val := fun h => hy (Fin.ext h.symm)
    simp [this, hy]

@[simp] theorem pixel_clear (px : Fin 64) (py : Fin 32) : pixel Framebuffer.clear px py = false := by
  simp [pixel, Framebuffer.clear]

/-- Framebuffers with the same pixels are equal. -/
theorem framebuffer_ext {f g : Framebuffer} (h : ∀ px py, pixel f px py = pixel g px py) : f = g := by
  apply Vector.ext
  intro r hr
  apply Vector.ext
  intro c hc
  exact h ⟨c, hc⟩ ⟨r, hr⟩

/-! ### Fetch (R105) -/

theorem fetch_eq_word {s : State} {w : Word} : fetch s = .word w ↔
    s.pc.toNat ≤ 0xFFE ∧ w = wordOfBytes (readByte s.mem s.pc.toNat) (readByte s.mem (s.pc.toNat + 1)) := by
  unfold fetch
  split
  · next a h => rw [firstOutOfRange_eq_some] at h; simp; omega
  · next h => rw [firstOutOfRange_eq_none] at h; simp [eq_comm]; omega

theorem fetch_eq_outOfRange {s : State} {a : Nat} :
    fetch s = .outOfRange a ↔ 0xFFE < s.pc.toNat ∧ a = max s.pc.toNat 0x1000 := by
  unfold fetch
  split
  · next a h => rw [firstOutOfRange_eq_some] at h; simp; omega
  · next h => rw [firstOutOfRange_eq_none] at h; simp; omega

/-! ### Decode failure and reset (R107, R271, R272) -/

theorem takeDecodeFailure_halt {w : Word} {s : State} (h : s.params.decodeFailPolicy = .halt) :
    takeDecodeFailure w s = { s with report := { badWord := w, badPc := s.pc }, decodeFail := true, fsm := .halted } := by
  unfold takeDecodeFailure; rw [h]; rfl

theorem takeDecodeFailure_skip {w : Word} {s : State} (h : s.params.decodeFailPolicy = .skip) :
    takeDecodeFailure w s =
      { s with report := { badWord := w, badPc := s.pc }, decodeFail := true, fsm := .running, pc := s.pc + 2 } := by
  unfold takeDecodeFailure; rw [h]; rfl

@[simp] theorem takeDecodeFailure_V (w : Word) (s : State) : (takeDecodeFailure w s).V = s.V := by
  unfold takeDecodeFailure; split <;> rfl
@[simp] theorem takeDecodeFailure_I (w : Word) (s : State) : (takeDecodeFailure w s).I = s.I := by
  unfold takeDecodeFailure; split <;> rfl
@[simp] theorem takeDecodeFailure_stack (w : Word) (s : State) : (takeDecodeFailure w s).stack = s.stack := by
  unfold takeDecodeFailure; split <;> rfl
@[simp] theorem takeDecodeFailure_sp (w : Word) (s : State) : (takeDecodeFailure w s).sp = s.sp := by
  unfold takeDecodeFailure; split <;> rfl
@[simp] theorem takeDecodeFailure_DT (w : Word) (s : State) : (takeDecodeFailure w s).DT = s.DT := by
  unfold takeDecodeFailure; split <;> rfl
@[simp] theorem takeDecodeFailure_ST (w : Word) (s : State) : (takeDecodeFailure w s).ST = s.ST := by
  unfold takeDecodeFailure; split <;> rfl
@[simp] theorem takeDecodeFailure_mem (w : Word) (s : State) : (takeDecodeFailure w s).mem = s.mem := by
  unfold takeDecodeFailure; split <;> rfl
@[simp] theorem takeDecodeFailure_fb (w : Word) (s : State) : (takeDecodeFailure w s).fb = s.fb := by
  unfold takeDecodeFailure; split <;> rfl
@[simp] theorem takeDecodeFailure_keys (w : Word) (s : State) : (takeDecodeFailure w s).keys = s.keys := by
  unfold takeDecodeFailure; split <;> rfl
@[simp] theorem takeDecodeFailure_rndS (w : Word) (s : State) : (takeDecodeFailure w s).rndS = s.rndS := by
  unfold takeDecodeFailure; split <;> rfl
@[simp] theorem takeDecodeFailure_waitKey (w : Word) (s : State) : (takeDecodeFailure w s).waitKey = s.waitKey := by
  unfold takeDecodeFailure; split <;> rfl
@[simp] theorem takeDecodeFailure_waitReg (w : Word) (s : State) : (takeDecodeFailure w s).waitReg = s.waitReg := by
  unfold takeDecodeFailure; split <;> rfl
@[simp] theorem takeDecodeFailure_fault (w : Word) (s : State) : (takeDecodeFailure w s).fault = s.fault := by
  unfold takeDecodeFailure; split <;> rfl
@[simp] theorem takeDecodeFailure_frame (w : Word) (s : State) : (takeDecodeFailure w s).frame = s.frame := by
  unfold takeDecodeFailure; split <;> rfl
@[simp] theorem takeDecodeFailure_params (w : Word) (s : State) : (takeDecodeFailure w s).params = s.params := by
  unfold takeDecodeFailure; split <;> rfl
@[simp] theorem takeDecodeFailure_pending (w : Word) (s : State) : (takeDecodeFailure w s).pending = s.pending := by
  unfold takeDecodeFailure; split <;> rfl
@[simp] theorem takeDecodeFailure_draws (w : Word) (s : State) : (takeDecodeFailure w s).draws = s.draws := by
  unfold takeDecodeFailure; split <;> rfl

theorem takeDecodeFailure_fsm (w : Word) (s : State) : (takeDecodeFailure w s).fsm =
    match s.params.decodeFailPolicy with
    | .halt => .halted
    | .skip => .running := by
  unfold takeDecodeFailure; cases s.params.decodeFailPolicy <;> rfl

theorem takeDecodeFailure_pc (w : Word) (s : State) : (takeDecodeFailure w s).pc =
    match s.params.decodeFailPolicy with
    | .halt => s.pc
    | .skip => s.pc + 2 := by
  unfold takeDecodeFailure; cases s.params.decodeFailPolicy <;> rfl

/-- A decode failure is no fault (R247): it never enters FAULTED, nor WAITING_FOR_KEY. -/
theorem takeDecodeFailure_fsm_cases (w : Word) (s : State) :
    (takeDecodeFailure w s).fsm = .halted ∨ (takeDecodeFailure w s).fsm = .running := by
  rw [takeDecodeFailure_fsm]; split <;> simp

theorem bootState_fits {p : Params} {image : List Byte} (h : image.length ≤ Config.maxImage) :
    bootState p image =
      { State.reset with params := p, mem := writeBytes (fontMemory p.fontTable) Config.entry image } := by
  simp [bootState, imageFits, h]

theorem bootState_tooLarge {p : Params} {image : List Byte} (h : Config.maxImage < image.length) :
    bootState p image =
      raiseFault .imageTooLarge 0x1000 0 { State.reset with params := p, mem := fontMemory p.fontTable } := by
  simp [bootState, imageFits, Nat.not_le.mpr h]

/-- `State.reset` is Reset with an empty image and the default parameters (DESIGN CHOICE log 4, PRESUMED log 5). -/
theorem bootState_default : bootState Config.defaultParams [] = State.reset := by decide

/-- Reset leaves memory in its canonical form. -/
theorem wf_bootState (p : Params) (image : List Byte) : Memory.wf (bootState p image).mem = true := by
  by_cases h : image.length ≤ Config.maxImage
  · rw [bootState_fits h]
    refine wf_writeBytes _ _ _ ?_ (wf_fontMemory _)
    simp only [Config.entry, Config.memSize, Config.maxImage] at h ⊢
    omega
  · rw [bootState_tooLarge (by omega)]
    exact wf_fontMemory _

end Sys2Proof.Machine
end

