-- ==== Sys2Proof/Laws/Display.lean ====
section
/-! SUPPORT. The specification lemmas of the framebuffer XOR engine and the collision detector (44_display.md R202, R203, R204): the loop of R202
is the pixel-by-pixel XOR with the sprite, because no two bits of one draw reach the same pixel. -/

namespace Sys2Proof.Machine

theorem pixel_drawPixel (bit : Bool) (px qx : Fin 64) (py qy : Fin 32) (d : Drawing) :
    pixel (drawPixel bit px py d).fb qx qy = (pixel d.fb qx qy ^^ (bit && decide (qx = px ∧ qy = py))) := by
  cases bit
  · simp [drawPixel]
  · by_cases h : qx = px ∧ qy = py
    · obtain ⟨rfl, rfl⟩ := h
      simp [drawPixel, pixel_togglePixel]
    · simp [drawPixel, pixel_togglePixel, h]

theorem collision_drawPixel (bit : Bool) (px : Fin 64) (py : Fin 32) (d : Drawing) :
    (drawPixel bit px py d).collision = (d.collision || (bit && pixel d.fb px py)) := by
  cases bit <;> simp [drawPixel]

/-- The columns `cs` of one sprite row, when no two of them fall on the same pixel. -/
theorem foldl_drawPixel (vx : Byte) (py : Fin 32) (row : Byte) (cs : List Nat) (hnd : (cs.map (wrapX vx)).Nodup) (d : Drawing) :
    (∀ qx qy, pixel (cs.foldl (fun d c => drawPixel (spriteBit row c) (wrapX vx c) py d) d).fb qx qy = true ↔
      ¬ (pixel d.fb qx qy = true ↔ qy = py ∧ ∃ c ∈ cs, spriteBit row c = true ∧ wrapX vx c = qx)) ∧
    ((cs.foldl (fun d c => drawPixel (spriteBit row c) (wrapX vx c) py d) d).collision = true ↔
      d.collision = true ∨ ∃ c ∈ cs, spriteBit row c = true ∧ pixel d.fb (wrapX vx c) py = true) := by
  induction cs generalizing d with
  | nil => simp
  | cons c cs ih =>
    rw [List.map_cons, List.nodup_cons] at hnd
    obtain ⟨hc, hnd⟩ := hnd
    have hne : ∀ c' ∈ cs, wrapX vx c' ≠ wrapX vx c := fun c' h' he => hc (he ▸ List.mem_map_of_mem h')
    obtain ⟨ihp, ihc⟩ := ih hnd (drawPixel (spriteBit row c) (wrapX vx c) py d)
    rw [List.foldl_cons]
    constructor
    · intro qx qy
      rw [ihp, pixel_drawPixel]
      by_cases hq : qx = wrapX vx c ∧ qy = py
      · obtain ⟨rfl, rfl⟩ := hq
        have hno : ¬ ∃ c' ∈ cs, spriteBit row c' = true ∧ wrapX vx c' = wrapX vx c := by
          rintro ⟨c', h', _, he⟩; exact hne c' h' he
        have hyes : (∃ c' ∈ c :: cs, spriteBit row c' = true ∧ wrapX vx c' = wrapX vx c) ↔ spriteBit row c = true := by
          constructor
          · rintro ⟨c', h', hb, he⟩
            rcases List.mem_cons.mp h' with rfl | h'
            · exact hb
            · exact absurd he (hne c' h')
          · intro hb; exact ⟨c, by simp, hb, rfl⟩
        rw [hyes]
        simp only [hno, and_false, iff_false, not_not, true_and, and_self, decide_true, Bool.and_true]
        cases spriteBit row c <;> cases pixel d.fb (wrapX vx c) qy <;> simp
      · have hyes : (qy = py ∧ ∃ c' ∈ c :: cs, spriteBit row c' = true ∧ wrapX vx c' = qx) ↔
            (qy = py ∧ ∃ c' ∈ cs, spriteBit row c' = true ∧ wrapX vx c' = qx) := by
          constructor
          · rintro ⟨hy, c', h', hb, he⟩
            rcases List.mem_cons.mp h' with rfl | h'
            · exact absurd ⟨he.symm, hy⟩ hq
            · exact ⟨hy, c', h', hb, he⟩
          · rintro ⟨hy, c', h', hb, he⟩; exact ⟨hy, c', by simp [h'], hb, he⟩
        rw [hyes]
        simp [hq]
    · rw [ihc, collision_drawPixel]
      have hsame : ∀ c' ∈ cs, pixel (drawPixel (spriteBit row c) (wrapX vx c) py d).fb (wrapX vx c') py = pixel d.fb (wrapX vx c') py := by
        intro c' h'
        rw [pixel_drawPixel]
        simp [hne c' h']
      constructor
      · rintro (h | ⟨c', h', hb, hp⟩)
        · rw [Bool.or_eq_true, Bool.and_eq_true] at h
          rcases h with h | ⟨hb, hp⟩
          · exact .inl h
          · exact .inr ⟨c, by simp, hb, hp⟩
        · exact .inr ⟨c', by simp [h'], hb, by rw [← hsame c' h']; exact hp⟩
      · rintro (h | ⟨c', h', hb, hp⟩)
        · exact .inl (by rw [h]; rfl)
        · rcases List.mem_cons.mp h' with rfl | h'
          · exact .inl (by rw [hb, hp]; simp)
          · exact .inr ⟨c', h', hb, by rw [hsame c' h']; exact hp⟩

/-- The eight columns of a sprite row fall on eight different pixels, since 8 < 64 (R204). -/
theorem wrapX_nodup (vx : Byte) : (([0, 1, 2, 3, 4, 5, 6, 7] : List Nat).map (wrapX vx)).Nodup := by
  simp only [List.map, List.nodup_cons, List.mem_cons, List.not_mem_nil, or_false, not_or, wrapX, Fin.ext_iff, Fin.val_ofNat,
    List.nodup_nil, not_false_eq_true, and_true]
  omega

theorem drawRow_spec (vx : Byte) (py : Fin 32) (row : Byte) (d : Drawing) :
    (∀ qx qy, pixel (drawRow vx py row d).fb qx qy = true ↔
      ¬ (pixel d.fb qx qy = true ↔ qy = py ∧ ∃ c, c < 8 ∧ spriteBit row c = true ∧ wrapX vx c = qx)) ∧
    ((drawRow vx py row d).collision = true ↔
      d.collision = true ∨ ∃ c, c < 8 ∧ spriteBit row c = true ∧ pixel d.fb (wrapX vx c) py = true) := by
  have hm : ∀ (P : Nat → Prop), (∃ c ∈ ([0, 1, 2, 3, 4, 5, 6, 7] : List Nat), P c) ↔ ∃ c, c < 8 ∧ P c := by
    intro P
    constructor
    · rintro ⟨c, hc, h⟩
      refine ⟨c, ?_, h⟩
      simp at hc; omega
    · rintro ⟨c, hc, h⟩
      refine ⟨c, ?_, h⟩
      simp; omega
  have := foldl_drawPixel vx py row _ (wrapX_nodup vx) d
  simp only [hm] at this
  exact this

/-- Toggling by A and then by B is toggling by either, when they exclude each other. -/
theorem xor_of_disjoint {p A B : Prop} (h : A → ¬ B) : ¬ (¬ (p ↔ A) ↔ B) ↔ ¬ (p ↔ A ∨ B) := by
  tauto

/-- The rows of a sprite of at most 32 rows (R202, R204): the picture is XORed with the sprite's bits, and the flag tells of a set bit on a set
pixel of the picture before the draw. -/
theorem drawRows_spec (vx vy : Byte) (rows : List Byte) (r : Nat) (d : Drawing) (hlen : rows.length ≤ 32) :
    (∀ qx qy, pixel (drawRows vx vy r rows d).fb qx qy = true ↔
      ¬ (pixel d.fb qx qy = true ↔
        ∃ k, ∃ h : k < rows.length, ∃ c, c < 8 ∧ spriteBit rows[k] c = true ∧ wrapX vx c = qx ∧ wrapY vy (r + k) = qy)) ∧
    ((drawRows vx vy r rows d).collision = true ↔
      d.collision = true ∨
        ∃ k, ∃ h : k < rows.length, ∃ c, c < 8 ∧ spriteBit rows[k] c = true ∧ pixel d.fb (wrapX vx c) (wrapY vy (r + k)) = true) := by
  induction rows generalizing r d with
  | nil => simp [drawRows]
  | cons row rows ih =>
    simp only [List.length_cons] at hlen
    obtain ⟨ihp, ihc⟩ := ih (r + 1) (drawRow vx (wrapY vy r) row d) (by omega)
    obtain ⟨rp, rc⟩ := drawRow_spec vx (wrapY vy r) row d
    have hne : ∀ k, k < rows.length → wrapY vy (r + 1 + k) ≠ wrapY vy r := by
      intro k hk he
      simp only [wrapY, Fin.ext_iff, Fin.val_ofNat] at he
      omega
    have hsplit : ∀ P : Nat → Byte → Prop,
        (∃ k, ∃ h : k < (row :: rows).length, P k (row :: rows)[k]) ↔ P 0 row ∨ ∃ k, ∃ h : k < rows.length, P (k + 1) rows[k] := by
      intro P
      constructor
      · rintro ⟨k, h, hP⟩
        cases k with
        | zero => exact .inl hP
        | succ k => exact .inr ⟨k, by simpa using h, hP⟩
      · rintro (hP | ⟨k, h, hP⟩)
        · exact ⟨0, by simp, hP⟩
        · exact ⟨k + 1, by simpa using h, hP⟩
    constructor
    · intro qx qy
      rw [drawRows, ihp, rp,
        hsplit (fun k b => ∃ c, c < 8 ∧ spriteBit b c = true ∧ wrapX vx c = qx ∧ wrapY vy (r + k) = qy)]
      have hA : (∃ c, c < 8 ∧ spriteBit row c = true ∧ wrapX vx c = qx ∧ wrapY vy (r + 0) = qy) ↔
          (qy = wrapY vy r ∧ ∃ c, c < 8 ∧ spriteBit row c = true ∧ wrapX vx c = qx) := by
        constructor
        · rintro ⟨c, h1, h2, h3, h4⟩; exact ⟨h4.symm, c, h1, h2, h3⟩
        · rintro ⟨h4, c, h1, h2, h3⟩; exact ⟨c, h1, h2, h3, h4.symm⟩
      have hB : (∃ k, ∃ h : k < rows.length, ∃ c, c < 8 ∧ spriteBit rows[k] c = true ∧ wrapX vx c = qx ∧ wrapY vy (r + (k + 1)) = qy) ↔
          (∃ k, ∃ h : k < rows.length, ∃ c, c < 8 ∧ spriteBit rows[k] c = true ∧ wrapX vx c = qx ∧ wrapY vy (r + 1 + k) = qy) := by
        refine exists_congr fun k => exists_congr fun _ => ?_
        rw [show r + (k + 1) = r + 1 + k by omega]
      rw [hA, hB]
      have hdis : (qy = wrapY vy r ∧ ∃ c, c < 8 ∧ spriteBit row c = true ∧ wrapX vx c = qx) →
          ¬ (∃ k, ∃ h : k < rows.length, ∃ c, c < 8 ∧ spriteBit rows[k] c = true ∧ wrapX vx c = qx ∧ wrapY vy (r + 1 + k) = qy) := by
        rintro ⟨hy, _⟩ ⟨k, hk, c, _, _, _, hy'⟩
        exact hne k hk (hy' ▸ hy)
      exact xor_of_disjoint hdis
    · rw [drawRows, ihc, rc,
        hsplit (fun k b => ∃ c, c < 8 ∧ spriteBit b c = true ∧ pixel d.fb (wrapX vx c) (wrapY vy (r + k)) = true), or_assoc]
      have hsame : ∀ k, k < rows.length → ∀ c, pixel (drawRow vx (wrapY vy r) row d).fb (wrapX vx c) (wrapY vy (r + 1 + k)) = true ↔
          pixel d.fb (wrapX vx c) (wrapY vy (r + 1 + k)) = true := by
        intro k hk c
        rw [rp]
        have := hne k hk
        tauto
      have hB : (∃ k, ∃ h : k < rows.length, ∃ c, c < 8 ∧ spriteBit rows[k] c = true ∧
            pixel (drawRow vx (wrapY vy r) row d).fb (wrapX vx c) (wrapY vy (r + 1 + k)) = true) ↔
          (∃ k, ∃ h : k < rows.length, ∃ c, c < 8 ∧ spriteBit rows[k] c = true ∧
            pixel d.fb (wrapX vx c) (wrapY vy (r + (k + 1))) = true) := by
        constructor
        · rintro ⟨k, hk, c, h1, h2, h3⟩
          exact ⟨k, hk, c, h1, h2, by rw [show r + (k + 1) = r + 1 + k by omega]; exact (hsame k hk c).mp h3⟩
        · rintro ⟨k, hk, c, h1, h2, h3⟩
          exact ⟨k, hk, c, h1, h2, (hsame k hk c).mpr (by rw [show r + 1 + k = r + (k + 1) by omega]; exact h3)⟩
      rw [hB]
      rfl

end Sys2Proof.Machine
end

