-- ==== Sys2Proof/Laws/Exec.lean ====
section
/-! SUPPORT. What the execute stage can do, said once: it always answers a next state; that state is a fault entry or a completion; what no
instruction touches. -/

namespace Sys2Proof.Machine

/-- The execute stage never stops the run by itself: every outcome of the spec is a state of the machine. -/
theorem exec_next (i : Instr) (s : State) : ∃ t, exec i s = .next t := by
  cases i <;> simp only [exec]
  case ret z => unfold execRet; split <;> exact ⟨_, rfl⟩
  case call n => unfold execCall; split <;> exact ⟨_, rfl⟩
  case drw x y n => unfold execDrw; split <;> exact ⟨_, rfl⟩
  case skp x => unfold execSkp; split <;> exact ⟨_, rfl⟩
  case sknp x => unfold execSknp; split <;> exact ⟨_, rfl⟩
  case ldVxK x => unfold execLdVxK; split <;> exact ⟨_, rfl⟩
  case ldB x => unfold execLdB; split <;> exact ⟨_, rfl⟩
  case ldIVx x => unfold execLdIVx; split <;> exact ⟨_, rfl⟩
  case ldVxI x => unfold execLdVxI; split <;> exact ⟨_, rfl⟩
  all_goals exact ⟨_, rfl⟩

/-- What the execute stage leaves alone in the fields the control state hangs on: either it raises a fault, or it is a completion that keeps
them, or it is LD Vx,K. -/
theorem exec_fate {i : Instr} {s t : State} (h : exec i s = .next t) :
    (∃ c a, c ≠ FaultCause.none ∧ t = raiseFault c a (encode i) s) ∨
    ((∀ x, i ≠ .ldVxK x) ∧ t.fsm = s.fsm ∧ t.waitKey = s.waitKey ∧ t.waitReg = s.waitReg ∧ t.fault = s.fault) ∨
    (∃ x, i = .ldVxK x ∧ ((s.keys = 0 ∧ t = startWait x s) ∨
      (∃ k, lowestKey s.keys = some k ∧ t = next (endWait (setV x (BitVec.ofNat 8 k) s))))) := by
  cases i <;> simp only [exec] at h
  case ret z =>
    unfold execRet at h; split at h <;> cases h
    · exact .inl ⟨_, _, by decide, rfl⟩
    · next hp => obtain ⟨_, _, rfl, rfl⟩ := pop_eq_some.mp hp; exact .inr (.inl ⟨by simp, rfl, rfl, rfl, rfl⟩)
  case call n =>
    unfold execCall at h; split at h <;> cases h
    · exact .inl ⟨_, _, by decide, rfl⟩
    · next hp => obtain ⟨_, rfl⟩ := push_eq_some.mp hp; exact .inr (.inl ⟨by simp, rfl, rfl, rfl, rfl⟩)
  case drw x y n =>
    unfold execDrw at h; split at h <;> cases h
    · exact .inl ⟨_, _, by decide, rfl⟩
    · exact .inr (.inl ⟨by simp, rfl, rfl, rfl, rfl⟩)
  case skp x =>
    unfold execSkp at h; split at h <;> cases h
    · exact .inl ⟨_, _, by decide, rfl⟩
    · exact .inr (.inl ⟨by simp, rfl, rfl, rfl, rfl⟩)
  case sknp x =>
    unfold execSknp at h; split at h <;> cases h
    · exact .inl ⟨_, _, by decide, rfl⟩
    · exact .inr (.inl ⟨by simp, rfl, rfl, rfl, rfl⟩)
  case ldB x =>
    unfold execLdB at h; split at h <;> cases h
    · exact .inl ⟨_, _, by decide, rfl⟩
    · exact .inr (.inl ⟨by simp, rfl, rfl, rfl, rfl⟩)
  case ldIVx x =>
    unfold execLdIVx at h; split at h <;> cases h
    · exact .inl ⟨_, _, by decide, rfl⟩
    · exact .inr (.inl ⟨by simp, rfl, rfl, rfl, rfl⟩)
  case ldVxI x =>
    unfold execLdVxI at h; split at h <;> cases h
    · exact .inl ⟨_, _, by decide, rfl⟩
    · exact .inr (.inl ⟨by simp, rfl, rfl, rfl, rfl⟩)
  case ldVxK x =>
    unfold execLdVxK at h; split at h <;> cases h
    · next k hk => exact .inr (.inr ⟨x, rfl, .inr ⟨k, hk, rfl⟩⟩)
    · next hk => exact .inr (.inr ⟨x, rfl, .inl ⟨lowestKey_eq_none.mp hk, rfl⟩⟩)
  all_goals (cases h; exact .inr (.inl ⟨by simp, rfl, rfl, rfl, rfl⟩))

/-- No instruction touches the samples, the report, the strobes, the parameters or the host's events (R38). -/
theorem exec_keeps_surroundings {i : Instr} {s t : State} (h : exec i s = .next t) :
    t.keys = s.keys ∧ t.rndS = s.rndS ∧ t.report = s.report ∧ t.frame = s.frame ∧ t.decodeFail = s.decodeFail ∧
      t.params = s.params ∧ t.pending = s.pending ∧ t.draws = s.draws := by
  cases i <;> simp only [exec] at h
  case ret z =>
    unfold execRet at h; split at h <;> cases h
    · exact ⟨rfl, rfl, rfl, rfl, rfl, rfl, rfl, rfl⟩
    · next hp => obtain ⟨_, _, rfl, rfl⟩ := pop_eq_some.mp hp; exact ⟨rfl, rfl, rfl, rfl, rfl, rfl, rfl, rfl⟩
  case call n =>
    unfold execCall at h; split at h <;> cases h
    · exact ⟨rfl, rfl, rfl, rfl, rfl, rfl, rfl, rfl⟩
    · next hp => obtain ⟨_, rfl⟩ := push_eq_some.mp hp; exact ⟨rfl, rfl, rfl, rfl, rfl, rfl, rfl, rfl⟩
  case drw x y n => unfold execDrw at h; split at h <;> cases h <;> exact ⟨rfl, rfl, rfl, rfl, rfl, rfl, rfl, rfl⟩
  case skp x => unfold execSkp at h; split at h <;> cases h <;> exact ⟨rfl, rfl, rfl, rfl, rfl, rfl, rfl, rfl⟩
  case sknp x => unfold execSknp at h; split at h <;> cases h <;> exact ⟨rfl, rfl, rfl, rfl, rfl, rfl, rfl, rfl⟩
  case ldVxK x => unfold execLdVxK at h; split at h <;> cases h <;> exact ⟨rfl, rfl, rfl, rfl, rfl, rfl, rfl, rfl⟩
  case ldB x => unfold execLdB at h; split at h <;> cases h <;> exact ⟨rfl, rfl, rfl, rfl, rfl, rfl, rfl, rfl⟩
  case ldIVx x => unfold execLdIVx at h; split at h <;> cases h <;> exact ⟨rfl, rfl, rfl, rfl, rfl, rfl, rfl, rfl⟩
  case ldVxI x => unfold execLdVxI at h; split at h <;> cases h <;> exact ⟨rfl, rfl, rfl, rfl, rfl, rfl, rfl, rfl⟩
  all_goals (cases h; exact ⟨rfl, rfl, rfl, rfl, rfl, rfl, rfl, rfl⟩)

/-- Only LD B,Vx and LD [I],Vx write memory (R51), and they write bytes in range. -/
theorem exec_mem {i : Instr} {s t : State} (h : exec i s = .next t) :
    t.mem = s.mem ∨ ∃ bs, s.I.toNat + bs.length ≤ Config.memSize ∧ t.mem = writeBytes s.mem s.I.toNat bs := by
  cases i <;> simp only [exec] at h
  case ret z =>
    unfold execRet at h; split at h <;> cases h
    · exact .inl rfl
    · next hp => obtain ⟨_, _, rfl, rfl⟩ := pop_eq_some.mp hp; exact .inl rfl
  case call n =>
    unfold execCall at h; split at h <;> cases h
    · exact .inl rfl
    · next hp => obtain ⟨_, rfl⟩ := push_eq_some.mp hp; exact .inl rfl
  case drw x y n => unfold execDrw at h; split at h <;> cases h <;> exact .inl rfl
  case skp x => unfold execSkp at h; split at h <;> cases h <;> exact .inl rfl
  case sknp x => unfold execSknp at h; split at h <;> cases h <;> exact .inl rfl
  case ldVxK x => unfold execLdVxK at h; split at h <;> cases h <;> exact .inl rfl
  case ldVxI x => unfold execLdVxI at h; split at h <;> cases h <;> exact .inl rfl
  case ldB x =>
    unfold execLdB at h; split at h <;> cases h
    · exact .inl rfl
    · next hr =>
      refine .inr ⟨bcdDigits (readV s x), ?_, rfl⟩
      rw [firstOutOfRange_eq_none] at hr
      simp only [addrI] at hr
      simp only [bcdDigits, List.length_cons, List.length_nil, Config.memSize]
      omega
  case ldIVx x =>
    unfold execLdIVx at h; split at h <;> cases h
    · exact .inl rfl
    · next hr =>
      refine .inr ⟨dumpRegs s.V x, ?_, rfl⟩
      rw [firstOutOfRange_eq_none] at hr
      simp only [addrI] at hr
      simp only [length_dumpRegs, Config.memSize]
      omega
  all_goals (cases h; exact .inl rfl)

/-- Every instruction keeps memory in its canonical form. -/
theorem exec_keeps_wf {i : Instr} {s t : State} (h : exec i s = .next t) (hw : Memory.wf s.mem = true) : Memory.wf t.mem = true := by
  obtain he | ⟨bs, hr, he⟩ := exec_mem h
  · rw [he]; exact hw
  · rw [he]; exact wf_writeBytes _ _ _ hr hw

end Sys2Proof.Machine
end

