-- ==== Sys2Proof/Laws/PerInstr.lean ====
section
/-! SUPPORT. The per-instruction family OpcodeRow: the encoder writes every instruction into its own row of 30_encoding.md R74. -/

namespace Sys2Proof.Laws.OpcodeRow

/-- The instruction's word is selected by its row's mask and value. -/
def Statement (i : Instr) : Prop := encode i &&& i.row.mask = i.row.value

theorem cls (z : Nibble) : Statement (.cls z) := ofXkk_lowByte _ _ _
theorem ret (z : Nibble) : Statement (.ret z) := ofXkk_lowByte _ _ _
theorem jp (nnn : Addr12) : Statement (.jp nnn) := ofNnn_top _ _
theorem call (nnn : Addr12) : Statement (.call nnn) := ofNnn_top _ _
theorem seImm (x : Nibble) (kk : Byte) : Statement (.seImm x kk) := ofXkk_top _ _ _
theorem sneImm (x : Nibble) (kk : Byte) : Statement (.sneImm x kk) := ofXkk_top _ _ _
theorem seReg (x : Nibble) (y : Nibble) (n : Nibble) : Statement (.seReg x y n) := ofNibbles_top _ _ _ _
theorem ldX (x : Nibble) (kk : Byte) : Statement (.ldX x kk) := ofXkk_top _ _ _
theorem addImm (x : Nibble) (kk : Byte) : Statement (.addImm x kk) := ofXkk_top _ _ _
theorem ldReg (x : Nibble) (y : Nibble) : Statement (.ldReg x y) := ofNibbles_topLow _ _ _ _
theorem orReg (x : Nibble) (y : Nibble) : Statement (.orReg x y) := ofNibbles_topLow _ _ _ _
theorem andReg (x : Nibble) (y : Nibble) : Statement (.andReg x y) := ofNibbles_topLow _ _ _ _
theorem xorReg (x : Nibble) (y : Nibble) : Statement (.xorReg x y) := ofNibbles_topLow _ _ _ _
theorem addReg (x : Nibble) (y : Nibble) : Statement (.addReg x y) := ofNibbles_topLow _ _ _ _
theorem sub (x : Nibble) (y : Nibble) : Statement (.sub x y) := ofNibbles_topLow _ _ _ _
theorem shr (x : Nibble) (y : Nibble) : Statement (.shr x y) := ofNibbles_topLow _ _ _ _
theorem subn (x : Nibble) (y : Nibble) : Statement (.subn x y) := ofNibbles_topLow _ _ _ _
theorem shl (x : Nibble) (y : Nibble) : Statement (.shl x y) := ofNibbles_topLow _ _ _ _
theorem sneReg (x : Nibble) (y : Nibble) (n : Nibble) : Statement (.sneReg x y n) := ofNibbles_top _ _ _ _
theorem ldI (nnn : Addr12) : Statement (.ldI nnn) := ofNnn_top _ _
theorem jpV0 (nnn : Addr12) : Statement (.jpV0 nnn) := ofNnn_top _ _
theorem rnd (x : Nibble) (kk : Byte) : Statement (.rnd x kk) := ofXkk_top _ _ _
theorem drw (x : Nibble) (y : Nibble) (n : Nibble) : Statement (.drw x y n) := ofNibbles_top _ _ _ _
theorem skp (x : Nibble) : Statement (.skp x) := ofXkk_lowByte _ _ _
theorem sknp (x : Nibble) : Statement (.sknp x) := ofXkk_lowByte _ _ _
theorem ldVxDt (x : Nibble) : Statement (.ldVxDt x) := ofXkk_lowByte _ _ _
theorem ldVxK (x : Nibble) : Statement (.ldVxK x) := ofXkk_lowByte _ _ _
theorem ldDtVx (x : Nibble) : Statement (.ldDtVx x) := ofXkk_lowByte _ _ _
theorem ldStVx (x : Nibble) : Statement (.ldStVx x) := ofXkk_lowByte _ _ _
theorem addI (x : Nibble) : Statement (.addI x) := ofXkk_lowByte _ _ _
theorem ldF (x : Nibble) : Statement (.ldF x) := ofXkk_lowByte _ _ _
theorem ldB (x : Nibble) : Statement (.ldB x) := ofXkk_lowByte _ _ _
theorem ldIVx (x : Nibble) : Statement (.ldIVx x) := ofXkk_lowByte _ _ _
theorem ldVxI (x : Nibble) : Statement (.ldVxI x) := ofXkk_lowByte _ _ _

end Sys2Proof.Laws.OpcodeRow
end

