-- ==== Sys2Proof/Laws/Step.lean ====
section
/-! SUPPORT. What a step can do, said once (40_cycle_fsm.md R102, R103, R119). -/

namespace Sys2Proof.Machine

theorem step_pending_cons {s : State} {e : Event} {rest : List Event} (h : s.pending = e :: rest) :
    step s = takeEvent e (setPending rest s) := by
  simp [step, takeNext, h]

theorem step_pending_nil {s : State} (h : s.pending = []) : step s = unscheduledStep s := by
  simp [step, takeNext, h]

theorem cycle_terminal {s : State} (k : Word) (r : Byte) (stop : Bool) (h : s.fsm.live = false) :
    cycle k r stop s = .next (clearStrobes s) := by
  simp [cycle, h]

theorem cycle_stop {s : State} (k : Word) (r : Byte) (h : s.fsm.live = true) :
    cycle k r true s = .next (setFsm .stopped (clearStrobes s)) := by
  simp [cycle, h]

theorem cycle_runs {s : State} (k : Word) (r : Byte) (h : s.fsm.live = true) :
    cycle k r false s = fetchExecute (sampleInputs k r (clearStrobes s)) := by
  simp [cycle, h]

/-- The three ends of a running step (R105, R107, R109). -/
theorem fetchExecute_cases {s t : State} (h : fetchExecute s = .next t) :
    (∃ a, fetch s = .outOfRange a ∧ t = endStep (raiseFault .fetchOob a 0 s)) ∨
    (∃ w, fetch s = .word w ∧ decode w = .failure w ∧ t = endStep (takeDecodeFailure w s)) ∨
    (∃ w i u, fetch s = .word w ∧ decode w = .instr i ∧ exec i s = .next u ∧ t = endStep u) := by
  unfold fetchExecute at h
  split at h
  · next a hf => cases h; exact .inl ⟨a, hf, rfl⟩
  · next w hf =>
    split at h
    · next w' hd =>
      cases h
      obtain rfl := decode_failure_word hd
      exact .inr (.inl ⟨_, hf, hd, rfl⟩)
    · next i hd =>
      obtain ⟨u, hu⟩ := exec_next i s
      rw [hu] at h
      cases h
      exact .inr (.inr ⟨w, i, u, hf, hd, hu, rfl⟩)

/-- The four ends of a Step event: nothing in a terminal state, the stop, or a running step. -/
theorem cycle_cases {s t : State} {k : Word} {r : Byte} {stop : Bool} (h : cycle k r stop s = .next t) :
    (s.fsm.live = false ∧ t = clearStrobes s) ∨
    (s.fsm.live = true ∧ stop = true ∧ t = setFsm .stopped (clearStrobes s)) ∨
    (s.fsm.live = true ∧ stop = false ∧ fetchExecute (sampleInputs k r (clearStrobes s)) = .next t) := by
  cases hl : s.fsm.live
  · rw [cycle_terminal k r stop hl] at h; cases h; exact .inl ⟨rfl, rfl⟩
  · cases stop
    · rw [cycle_runs k r hl] at h; exact .inr (.inr ⟨rfl, rfl, h⟩)
    · rw [cycle_stop k r hl] at h; cases h; exact .inr (.inl ⟨rfl, rfl, rfl⟩)

/-- What one step of the machine does: a Step event (scheduled or not), a Tick, or a Reset. -/
theorem step_cases {s t : State} (h : step s = .next t) :
    (∃ k r stop s₀, (s₀ = countDraw s ∨ ∃ rest, s.pending = .step k r stop :: rest ∧ s₀ = setPending rest s) ∧
      cycle k r stop s₀ = .next t) ∨
    (∃ rest, s.pending = .tick :: rest ∧ t = tick (clearStrobes (setPending rest s))) ∨
    (∃ image rest, s.pending = .reset image :: rest ∧ t = takeReset image (setPending rest s)) := by
  obtain hp | ⟨e, rest, hp⟩ : s.pending = [] ∨ ∃ e rest, s.pending = e :: rest := by
    cases s.pending with
    | nil => exact .inl rfl
    | cons e rest => exact .inr ⟨e, rest, rfl⟩
  · rw [step_pending_nil hp] at h
    exact .inl ⟨_, _, _, _, .inl rfl, h⟩
  · rw [step_pending_cons hp] at h
    cases e with
    | reset image => cases h; exact .inr (.inr ⟨image, rest, hp, rfl⟩)
    | step k r stop => exact .inl ⟨k, r, stop, _, .inr ⟨rest, hp, rfl⟩, h⟩
    | tick => cases h; exact .inr (.inl ⟨rest, hp, rfl⟩)

/-- A step always answers a next state. -/
theorem step_next (s : State) : ∃ t, step s = .next t := by
  have hf : ∀ s, ∃ t, fetchExecute s = .next t := by
    intro s
    unfold fetchExecute
    split
    · exact ⟨_, rfl⟩
    · split
      · exact ⟨_, rfl⟩
      · next i _ => obtain ⟨u, hu⟩ := exec_next i s; exact ⟨endStep u, by rw [hu]; rfl⟩
  have hc : ∀ k r stop s, ∃ t, cycle k r stop s = .next t := by
    intro k r stop s
    unfold cycle
    split
    · split
      · exact ⟨_, rfl⟩
      · exact hf _
    · exact ⟨_, rfl⟩
  cases hp : s.pending with
  | nil => rw [step_pending_nil hp]; exact hc _ _ _ _
  | cons e rest =>
    rw [step_pending_cons hp]
    cases e with
    | reset image => exact ⟨_, rfl⟩
    | step k r stop => exact hc _ _ _ _
    | tick => exact ⟨_, rfl⟩

end Sys2Proof.Machine
end

