-- ==== Sys2Proof/Tests/Slice0.lean ====
section
/-! SUPPORT. The model's own tests: the check of WellFormed, decoding of words written out from the patterns of 30_encoding.md R74, one step per
instruction with the results of the vectors of 95_test_vectors.md (the V number stands in each docstring), and a state that meets the hypotheses
of each statement of Obligations.lean. -/

namespace Sys2Proof.Tests

open Sys2Proof Sys2Proof.Machine Sys2Proof.Claims

/-! ### WellFormed -/

/-- V111: an image of 3585 bytes is the ill-formed term; V110: one of 3584 bytes fits. -/
theorem test_image_of_3585_bytes_refused : imageFits (List.replicate 3585 0) = false :=
  decide_eq_false (by rw [List.length_replicate]; decide)
theorem test_image_of_3584_bytes_fits : imageFits (List.replicate 3584 0) = true :=
  decide_eq_true (by rw [List.length_replicate])

/-! ### Decode: a word of every row of R74, written from its pattern -/

theorem test_decode_family_0 : decode 0x00E0 = .instr (.cls 0) ∧ decode 0x0AE0 = .instr (.cls 0xA) ∧
    decode 0x00EE = .instr (.ret 0) ∧ decode 0x0FEE = .instr (.ret 0xF) := by decide
theorem test_decode_jumps : decode 0x1FFF = .instr (.jp 0xFFF) ∧ decode 0x2210 = .instr (.call 0x210) ∧
    decode 0xB300 = .instr (.jpV0 0x300) := by decide
theorem test_decode_skips : decode 0x3342 = .instr (.seImm 3 0x42) ∧ decode 0x4001 = .instr (.sneImm 0 1) ∧
    decode 0x5127 = .instr (.seReg 1 2 7) ∧ decode 0x912F = .instr (.sneReg 1 2 0xF) := by decide
theorem test_decode_immediates : decode 0x6005 = .instr (.ldX 0 5) ∧ decode 0x7F01 = .instr (.addImm 0xF 1) ∧
    decode 0xA20A = .instr (.ldI 0x20A) ∧ decode 0xC30F = .instr (.rnd 3 0x0F) := by decide
theorem test_decode_family_8 : decode 0x83F0 = .instr (.ldReg 3 0xF) ∧ decode 0x8121 = .instr (.orReg 1 2) ∧
    decode 0x8F12 = .instr (.andReg 0xF 1) ∧ decode 0x8123 = .instr (.xorReg 1 2) ∧ decode 0x8F14 = .instr (.addReg 0xF 1) ∧
    decode 0x8AB5 = .instr (.sub 0xA 0xB) ∧ decode 0x8456 = .instr (.shr 4 5) ∧ decode 0x8F17 = .instr (.subn 0xF 1) ∧
    decode 0x812E = .instr (.shl 1 2) := by decide
theorem test_decode_display_and_keys : decode 0xD125 = .instr (.drw 1 2 5) ∧ decode 0xE19E = .instr (.skp 1) ∧
    decode 0xE1A1 = .instr (.sknp 1) := by decide
theorem test_decode_family_F : decode 0xF107 = .instr (.ldVxDt 1) ∧ decode 0xF30A = .instr (.ldVxK 3) ∧
    decode 0xF115 = .instr (.ldDtVx 1) ∧ decode 0xF118 = .instr (.ldStVx 1) ∧ decode 0xF01E = .instr (.addI 0) ∧
    decode 0xF829 = .instr (.ldF 8) ∧ decode 0xFA33 = .instr (.ldB 0xA) ∧ decode 0xFF55 = .instr (.ldIVx 0xF) ∧
    decode 0xF265 = .instr (.ldVxI 2) := by decide
/-- V01, V02, V05..V11 -/
theorem test_decode_failures : [0x0000, 0x0123, 0x8008, 0x800F, 0xE000, 0xE1A0, 0xF000, 0xF1FF, 0xF0A1].all
    (fun w : Word => decide (decode w = .failure w)) = true := by decide
/-- The encoder gives the same words back, the bytes high byte first (R55). -/
theorem test_encode_words : encode (.drw 1 2 5) = 0xD125 ∧ encode (.ret 0xF) = 0x0FEE ∧ encode (.sneReg 1 2 0xF) = 0x912F ∧
    encodeBytes (.ldIVx 1) = [0xF1, 0x55] := by decide
theorem test_decodeTableWord : decodeTableWord 16 0x8AB5 = some (.sub 0xA 0xB) ∧ decodeTableWord 16 0x0123 = none := by decide

/-! ### States the tests start from -/

/-- `s` with the word `w` at pc and one Step as the next event. -/
def ready (w keypad : Word) (rnd : Byte) (s : State) : State :=
  setPending [.step keypad rnd false] (placeWord s w)

/-- The state one step leads to, if the step answers one. -/
def stepped (s : State) : Option State :=
  match step s with
  | .next t => some t
  | .fault _ => none
  | .refused _ => none

/-- One Step of the word `w` in `s` with no key pressed and the random byte 0. -/
def after (w : Word) (s : State) : Option State := stepped (ready w 0 0 s)

/-- `after`, with a keypad. -/
def afterKeys (w keypad : Word) (s : State) : Option State := stepped (ready w keypad 0 s)

/-- The state after reset with two registers set. -/
def regs (x : Nibble) (a : Byte) (y : Nibble) (b : Byte) : State := setV y b (setV x a State.reset)

/-- The state after reset with I and one register set. -/
def index (i : Word) (x : Nibble) (a : Byte) : State := setI i (setV x a State.reset)

/-- The state after reset at stack depth `sp`, every entry 0x300. -/
def depth (sp : Fin 17) : State := { State.reset with stack := Vector.replicate 16 0x300, sp := sp }

/-- The values of two registers. -/
def two (x y : Nibble) (s : State) : Byte × Byte := (readV s x, readV s y)

/-- The fault record of a FAULTED state. -/
def faultOfState (s : State) : Option FaultRecord := if s.fsm = .faulted then some s.fault else none

/-! ### The step around an instruction -/

/-- V01: a decode failure under Halt. -/
theorem test_halt_policy : (after 0x0000 (depth 1)).map (fun t => (t.fsm, t.report.badWord, t.report.badPc, t.pc, t.sp)) =
    some (.halted, 0x0000, 0x200, 0x200, 1) := by decide
/-- V13: a decode failure under Skip. -/
theorem test_skip_policy :
    (after 0x8008 { State.reset with params := { Config.defaultParams with decodeFailPolicy := .skip } }).map
      (fun t => (t.fsm, t.report.badWord, t.pc, t.frame, t.decodeFail)) = some (.running, 0x8008, 0x202, true, true) := by decide
/-- V16: the highest legal fetch. -/
theorem test_highest_fetch : (after 0x6012 (setPc 0xFFE State.reset)).map (fun t => (readV t 0, t.pc)) = some (0x12, 0x1000) := by decide
/-- V17: a fetch across the end of memory. -/
theorem test_fetch_out_of_range : (stepped (setPending [.step 0 0 false] (setPc 0xFFF State.reset))).bind faultOfState =
    some { cause := .fetchOob, pc := 0xFFF, sp := 0, addr := 0x1000, word := 0 } := by decide
/-- The numeric values of R241. -/
theorem test_fault_codes : [FaultCause.none, .stackOverflow, .stackUnderflow, .fetchOob, .dataOob, .keyIndexOob, .imageTooLarge].map
    FaultCause.code = [0, 1, 2, 3, 4, 5, 6] := by decide
/-- V105: no tick in a terminal state. -/
theorem test_no_tick_when_faulted :
    (stepped { State.reset with fsm := .faulted, DT := 5, pending := [.tick] }).map State.DT = some 5 := by decide
/-- W6: a tick decrements both timers. -/
theorem test_tick : (stepped { State.reset with DT := 3, ST := 1, pending := [.tick] }).map (fun t => (t.DT, t.ST)) = some (2, 0) := by
  decide
/-- V106: stop while waiting. -/
theorem test_stop_while_waiting :
    (stepped { startWait 3 State.reset with pending := [.step 0 0 true] }).map (fun t => (t.fsm, t.pc, t.waitReg, t.frame)) =
      some (.stopped, 0x200, 3, false) := by decide
/-- V108: reset with the image 60 05. -/
theorem test_reset_image :
    (stepped { State.reset with fsm := .faulted, pending := [.reset [0x60, 0x05]] }).map
      (fun t => (t.fsm, t.pc, readByte t.mem 0x200, readByte t.mem 0x201, readByte t.mem 0x4C)) =
      some (.running, 0x200, 0x60, 0x05, 0x80) := by decide
/-- V109: reset with an empty image, then a step. -/
theorem test_reset_then_step : (stepped State.reset).map (fun t => (t.fsm, t.report)) =
    some (.halted, { badWord := 0, badPc := 0x200 }) := by decide
/-- A table word placed by `withFetchWord` runs, from reset and from a halted state with a Tick to come and no legal pc. -/
theorem test_withFetchWord_runs : (stepped (State.reset.withFetchWord 16 0x6012)).map (fun t => readV t 0) = some 0x12 ∧
    (stepped ({ State.reset with fsm := .halted, pc := 0x1234, pending := [.tick] }.withFetchWord 16 0x6012)).map
      (fun t => readV t 0) = some 0x12 := by decide

/-! ### One step per instruction -/

/-- V89, with the pixel (5, 6) set before. -/
theorem test_cls : (after 0x00E0 (setFb (togglePixel Framebuffer.clear 5 6) State.reset)).map (fun t => pixel t.fb 5 6) = some false := by
  decide
/-- V21 -/
theorem test_ret : (after 0x05EE (depth 1)).map (fun t => (t.pc, t.sp, t.stack[0])) = some (0x300, 0, 0x300) := by decide
/-- V20 -/
theorem test_ret_underflow : (after 0x00EE State.reset).bind faultOfState =
    some { cause := .stackUnderflow, pc := 0x200, sp := 0, addr := 0, word := 0x00EE } := by decide
/-- V25 -/
theorem test_jp : (after 0x1FFF State.reset).map State.pc = some 0xFFF := by decide
/-- V23 -/
theorem test_call : (after 0x2400 (depth 15)).map (fun t => (t.stack[15], t.stack[14], t.sp, t.pc)) = some (0x202, 0x300, 16, 0x400) := by
  decide
/-- V24 -/
theorem test_call_overflow : (after 0x2400 (depth 16)).bind faultOfState =
    some { cause := .stackOverflow, pc := 0x200, sp := 16, addr := 0, word := 0x2400 } := by decide
/-- V28, V29 -/
theorem test_seImm : (after 0x3342 (regs 3 0x42 0 0)).map State.pc = some 0x204 ∧
    (after 0x3343 (regs 3 0x42 0 0)).map State.pc = some 0x202 := by decide
/-- V30, V31 -/
theorem test_sneImm : (after 0x4000 State.reset).map State.pc = some 0x202 ∧ (after 0x4001 State.reset).map State.pc = some 0x204 := by
  decide
/-- V14; and V33's registers under SE -/
theorem test_seReg : (after 0x5127 (regs 1 7 2 7)).map State.pc = some 0x204 ∧
    (after 0x5120 (regs 1 7 2 8)).map State.pc = some 0x202 := by decide
/-- V33, V15 -/
theorem test_sneReg : (after 0x9120 (regs 1 7 2 8)).map State.pc = some 0x204 ∧
    (after 0x912F (regs 1 7 2 7)).map State.pc = some 0x202 := by decide
/-- V27, with V[x] of the address's digit set as well: the register is V0. -/
theorem test_jpV0 : (after 0xBFFF (regs 0 0xFF 0xF 1)).map State.pc = some 0x10FE := by decide
/-- W1 -/
theorem test_ldX : (after 0x6005 State.reset).map (fun t => (readV t 0, t.pc)) = some (0x05, 0x202) := by decide
/-- V36, V37 -/
theorem test_addImm : (after 0x70FF (regs 0 0x01 0xF 0x55)).map (two 0 0xF) = some (0x00, 0x55) ∧
    (after 0x7F01 (regs 0xF 0xFF 0 0)).map (two 0xF 0) = some (0, 0) := by decide
/-- V62 -/
theorem test_ldReg : (after 0x8010 (regs 0 0 1 0x33)).map (two 0 1) = some (0x33, 0x33) := by decide
/-- V59 -/
theorem test_orReg : (after 0x8011 (setV 0xF 0x55 (regs 0 0xF0 1 0x0F))).map (two 0 0xF) = some (0xFF, 0x55) := by decide
/-- V60 -/
theorem test_andReg : (after 0x8F12 (regs 0xF 0xF0 1 0x3C)).map (two 0xF 1) = some (0x30, 0x3C) := by decide
/-- V61 -/
theorem test_xorReg : (after 0x8003 (regs 0 0xAA 1 0)).map (two 0 0xF) = some (0, 0) := by decide
/-- V39, V40 -/
theorem test_addReg : (after 0x8014 (regs 0 0x7F 1 0x80)).map (two 0 0xF) = some (0xFF, 0) ∧
    (after 0x8014 (regs 0 0xC8 1 0x64)).map (two 0 0xF) = some (0x2C, 1) := by decide
/-- V42: VF as destination ends as the flag. -/
theorem test_addReg_into_vf : (after 0x8F14 (regs 0xF 0x10 1 0x01)).map (two 0xF 1) = some (0, 1) := by decide
/-- V44, V45 -/
theorem test_sub : (after 0x8015 (regs 0 5 1 5)).map (two 0 0xF) = some (0, 1) ∧
    (after 0x8015 (regs 0 5 1 6)).map (two 0 0xF) = some (0xFF, 0) := by decide
/-- V46 -/
theorem test_sub_into_vf : (after 0x8F15 (regs 0xF 0x10 1 0x01)).map (two 0xF 1) = some (1, 1) := by decide
/-- V48, V49 -/
theorem test_subn : (after 0x8017 (regs 0 5 1 5)).map (two 0 0xF) = some (0, 1) ∧
    (after 0x8017 (regs 0 6 1 5)).map (two 0 0xF) = some (0xFF, 0) := by decide
/-- V50 -/
theorem test_subn_into_vf : (after 0x8F17 (regs 0xF 1 1 3)).map (two 0xF 1) = some (1, 3) := by decide
/-- V52, V58 -/
theorem test_shr : (after 0x8006 (regs 0 0xFE 1 0)).map (two 0 0xF) = some (0x7F, 0) ∧
    (after 0x8456 (regs 4 4 5 0xFF)).map (two 4 5) = some (2, 0xFF) := by decide
/-- V56 -/
theorem test_shr_of_vf : (after 0x8F06 (regs 0xF 2 1 0)).map (two 0xF 0) = some (1, 0) := by decide
/-- V53, V54 -/
theorem test_shl : (after 0x800E (regs 0 0x80 1 0)).map (two 0 0xF) = some (0, 1) ∧
    (after 0x800E (regs 0 0x7F 1 0)).map (two 0 0xF) = some (0xFE, 0) := by decide
/-- V57 -/
theorem test_shl_of_vf : (after 0x8F0E (regs 0xF 0x81 1 0)).map (two 0xF 0) = some (2, 0) := by decide
/-- V63 -/
theorem test_ldI : (after 0xAFFF State.reset).map State.I = some 0xFFF := by decide
/-- V64 -/
theorem test_addI : (after 0xF01E (setV 0xF 0x55 (index 0xFFFF 0 1))).map (fun t => (t.I, readV t 0xF)) = some (0, 0x55) := by decide
/-- V66, V68 -/
theorem test_ldF : (after 0xF029 (index 0 0 0x0F)).map State.I = some 0x4B ∧ (after 0xF029 (index 0 0 0xFF)).map State.I = some 0x4FB := by
  decide
/-- V71 -/
theorem test_ldB : (after 0xF033 (index 0xFFD 0 0x9C)).map (fun t => readBytes t.mem 0xFFD 3) = some [1, 5, 6] := by decide
/-- V72 -/
theorem test_ldB_out_of_range : (after 0xF033 (index 0xFFE 0 0x9C)).bind faultOfState =
    some { cause := .dataOob, pc := 0x200, sp := 0, addr := 0x1000, word := 0xF033 } := by decide
/-- V77 -/
theorem test_ldIVx : (after 0xF255 (setV 2 3 (setV 1 2 (index 0x400 0 1)))).map (fun t => (readBytes t.mem 0x400 4, t.I)) =
    some ([1, 2, 3, 0], 0x400) := by decide
/-- V76 -/
theorem test_ldIVx_out_of_range : (after 0xF055 (index 0xFFFF 0 1)).bind faultOfState =
    some { cause := .dataOob, pc := 0x200, sp := 0, addr := 0xFFFF, word := 0xF055 } := by decide
/-- V78, with V3 set before -/
theorem test_ldVxI : (after 0xF265 (setMem (writeBytes [] 0x400 [0x0A, 0x0B, 0x0C, 0x0D]) (index 0x400 3 0x77))).map
    (fun t => (two 0 1 t, two 2 3 t, t.I)) = some ((0x0A, 0x0B), (0x0C, 0x77), 0x400) := by decide
/-- V75's range under the load -/
theorem test_ldVxI_out_of_range : (after 0xFF65 (index 0xFF1 0 0)).bind faultOfState =
    some { cause := .dataOob, pc := 0x200, sp := 0, addr := 0x1000, word := 0xFF65 } := by decide
/-- V90, V92 -/
theorem test_rnd : (stepped (ready 0xC300 0 0xA7 State.reset)).map (fun t => readV t 3) = some 0 ∧
    (stepped (ready 0xC30F 0 0xA7 State.reset)).map (fun t => readV t 3) = some 0x07 := by decide
/-- V95, V96 -/
theorem test_skp : (afterKeys 0xE19E 0x8000 (regs 1 0x0F 0 0)).map State.pc = some 0x204 ∧
    (afterKeys 0xE19E 0x7FFF (regs 1 0x0F 0 0)).map State.pc = some 0x202 := by decide
/-- V93 -/
theorem test_skp_bad_index : (after 0xE19E (regs 1 0x10 0 0)).bind faultOfState =
    some { cause := .keyIndexOob, pc := 0x200, sp := 0, addr := 0x10, word := 0xE19E } := by decide
/-- V97 -/
theorem test_sknp : (afterKeys 0xE1A1 0x8000 (regs 1 0x0F 0 0)).map State.pc = some 0x202 ∧
    (afterKeys 0xE1A1 0x7FFF (regs 1 0x0F 0 0)).map State.pc = some 0x204 := by decide
/-- V94 -/
theorem test_sknp_bad_index : (after 0xE1A1 (regs 1 0xFF 0 0)).bind faultOfState =
    some { cause := .keyIndexOob, pc := 0x200, sp := 0, addr := 0xFF, word := 0xE1A1 } := by decide
/-- V101, the Step half -/
theorem test_ldVxDt : (after 0xF107 (setDT 1 State.reset)).map (fun t => (readV t 1, t.DT)) = some (1, 1) := by decide
/-- V102, the Step half -/
theorem test_ldDtVx : (after 0xF115 (setDT 9 (regs 1 5 0 0))).map State.DT = some 5 := by decide
/-- V103 -/
theorem test_ldStVx : (after 0xF118 (setST 3 State.reset)).map (fun t => (t.ST, t.soundOn)) = some (0, false) := by decide
/-- V99 -/
theorem test_ldVxK_waits : (after 0xF30A (regs 3 9 0 0)).map (fun t => (t.fsm, t.waitKey, t.waitReg, t.pc, readV t 3, t.frame)) =
    some (.waitingForKey, true, 3, 0x200, 9, true) := by decide
/-- P5 step 6: a wait ends with the lowest of two keys. -/
theorem test_ldVxK_lowest_key : (afterKeys 0xF20A 0x0280 (startWait 2 State.reset)).map (fun t => (readV t 2, t.pc, t.fsm, t.waitKey)) =
    some (7, 0x202, .running, false) := by decide
set_option maxRecDepth 4000 in
/-- V87: the pixel hit goes out and VF tells it. -/
theorem test_drw_collision :
    (after 0xD011 (setMem (writeBytes [] 0x300 [0xC0]) (setFb (togglePixel Framebuffer.clear 0 0) (index 0x300 0 0)))).map
      (fun t => (pixel t.fb 0 0, pixel t.fb 1 0, readV t 0xF)) = some (false, true, 1) := by decide
set_option maxRecDepth 4000 in
/-- V88: wrap past the right edge, on the bottom row. -/
theorem test_drw_wraps :
    (after 0xD011 (setMem (writeBytes [] 0x300 [0xC0]) (setI 0x300 (regs 0 63 1 31)))).map
      (fun t => (pixel t.fb 63 31, pixel t.fb 0 31, readV t 0xF)) = some (true, true, 0) := by decide
/-- V82 -/
theorem test_drw_out_of_range : (after 0xD011 (index 0x1000 0 0)).bind faultOfState =
    some { cause := .dataOob, pc := 0x200, sp := 0, addr := 0x1000, word := 0xD011 } := by decide
/-- V83 -/
theorem test_drw_empty : (after 0xD010 (index 0xFFFF 0xF 1)).map (fun t => (readV t 0xF, t.pc, t.fsm)) = some (0, 0x202, .running) := by
  decide

/-! ### A state that meets the hypotheses of each statement -/

/-- `s` with the word `w` at pc and the events `es` to come. -/
def loaded (w : Word) (es : List Event) (s : State) : State := setPending es (placeWord s w)

/-- The state after reset under the policy Skip. -/
def skipping : State := { State.reset with params := { Config.defaultParams with decodeFailPolicy := .skip } }

/-- Waiting at the word 0xF30A (LD V3,K), with the events `es` to come. -/
def waiting (es : List Event) : State := startWait 3 (loaded 0xF30A es State.reset)

/-- A property of the state a step leads to is one of a state the step answers. -/
theorem step_of_stepped {α : Type} {s : State} {f : State → α} {a : α} (h : (stepped s).map f = some a) :
    ∃ t, step s = .next t ∧ f t = a := by
  unfold stepped at h
  cases hs : step s with
  | next t => rw [hs] at h; exact ⟨t, rfl, by simpa using h⟩
  | fault r => cases r
  | refused r => rw [hs] at h; cases h

theorem waiting_coreInv (es : List Event) : CoreInv (waiting es) where
  mem := (by decide : Memory.wf (waiting []).mem = true)
  wait := ⟨fun _ => ⟨rfl, 0xF30A, (by decide : fetch (waiting []) = .word 0xF30A), (by decide : decode 0xF30A = .instr (.ldVxK 3))⟩,
    fun h => absurd h (by decide : Fsm.waitingForKey ≠ .running)⟩
  fault := ⟨fun h => absurd h (by decide : Fsm.waitingForKey ≠ .faulted), fun _ => rfl⟩

theorem loaded_coreInv : CoreInv (loaded 0x6005 [.step 0 0 false] State.reset) where
  mem := by decide
  wait := ⟨fun h => absurd h (by decide), fun _ => rfl⟩
  fault := ⟨fun h => absurd h (by decide), fun _ => rfl⟩

theorem witness_DecodedWordIsItsEncoding : decode 0x0AE0 = .instr (.cls 0xA) := by decide

theorem witness_OpcodeRowsSelectTheDecodedWords :
    (Instr.cls 0).row ∈ opcodeRows ∧ (0x0AE0 : Word) &&& (Instr.cls 0).row.mask = (Instr.cls 0).row.value ∧
    decode 0x0AE0 = .instr (.cls 0xA) := by decide

theorem witness_DecodeFailuresCountedByFamily :
    opField 0x6005 ∉ [0x0#4, 0x8#4, 0xE#4, 0xF#4] ∧ decode 0x0123 = .failure 0x0123 ∧ decode 0x00E0 ≠ .failure 0x00E0 := by decide

theorem witness_StepRunsTheDecodedInstruction_scheduled :
    let s := loaded 0x6005 [.step 0 0 false] (setPc 0xFFE State.reset)
    s.pending = .step 0 0 false :: [] ∧ Live s ∧ s.pc.toNat ≤ 0xFFE ∧ decode (WordAtPc s) = .instr (.ldX 0 5) ∧
      ∃ t, exec (.ldX 0 5) (Sampled 0 0 [] s) = .next t :=
  ⟨rfl, .inl rfl, by decide, by decide, _, rfl⟩

theorem witness_StepRunsTheDecodedInstruction_unscheduled :
    let s := loaded 0x6005 [] State.reset
    s.pending = [] ∧ Live s ∧ s.pc.toNat ≤ 0xFFE ∧ decode (WordAtPc s) = .instr (.ldX 0 5) ∧
      ∃ t, exec (.ldX 0 5) (Sampled 0 (Config.freeRnd s.draws) [] { s with draws := s.draws + 1 }) = .next t :=
  ⟨rfl, .inl rfl, by decide, by decide, _, rfl⟩

theorem witness_StepTakenOnlyWhenLiveAndStopEndsIt :
    (let s := setFsm .halted (setPending [.step 0 0 true] State.reset); s.pending = .step 0 0 true :: [] ∧ ¬ Live s) ∧
    (let s := setPending [.step 0 0 true] State.reset; s.pending = .step 0 0 true :: [] ∧ Live s) ∧
    (let s := waiting [.step 0 0 true]; s.pending = .step 0 0 true :: [] ∧ Live s) :=
  ⟨⟨rfl, by unfold Live; decide⟩, ⟨rfl, .inl rfl⟩, ⟨rfl, .inr rfl⟩⟩

theorem witness_FetchReadsTheWordOrFaults :
    (setPc 0xFFE State.reset).pc.toNat ≤ 0xFFE ∧
    (let s := setPending [.step 0 0 false] (setPc 0xFFF State.reset)
     s.pending = .step 0 0 false :: [] ∧ Live s ∧ s.pc.toNat = 0xFFF) ∧
    (let s := setPending [.step 0 0 false] (setPc 0x1000 State.reset)
     s.pending = .step 0 0 false :: [] ∧ Live s ∧ 0xFFF < s.pc.toNat) :=
  ⟨by decide, ⟨rfl, .inl rfl, by decide⟩, ⟨rfl, .inl rfl, by decide⟩⟩

theorem witness_DecodeFailureHaltsUnderHalt :
    let s := loaded 0x0123 [.step 0 0 false] State.reset
    s.pending = .step 0 0 false :: [] ∧ Live s ∧ s.pc.toNat ≤ 0xFFE ∧ decode (WordAtPc s) = .failure 0x0123 ∧
      s.params.decodeFailPolicy = .halt :=
  ⟨rfl, .inl rfl, by decide, by decide, rfl⟩

theorem witness_DecodeFailureSkipsUnderSkip :
    let s := loaded 0x0123 [.step 0 0 false] skipping
    s.pending = .step 0 0 false :: [] ∧ s.fsm = .running ∧ s.pc.toNat ≤ 0xFFE ∧ decode (WordAtPc s) = .failure 0x0123 ∧
      s.params.decodeFailPolicy = .skip :=
  ⟨rfl, rfl, by decide, by decide, rfl⟩

theorem witness_FrameStrobeOfLiveSteps :
    (∃ t, step (loaded 0x6005 [.step 0 0 false] State.reset) = .next t ∧ t.frame = true) ∧
    StepComes (loaded 0x6005 [.step 0 0 false] State.reset) ∧
    (∃ t, step (loaded 0x00EE [.step 0 0 false] State.reset) = .next t ∧ t.frame = false) ∧
    (∃ t, step (setPending [.tick] State.reset) = .next t) :=
  ⟨step_of_stepped (by decide), .inr ⟨0, 0, false, [], rfl⟩, step_of_stepped (by decide), step_next _⟩

theorem witness_TickDecrementsNonzeroTimers :
    (setPending [.tick] State.reset).pending = .tick :: [] ∧ Live (setPending [.tick] State.reset) ∧
    ¬ Live (setFsm .stopped (setPending [.tick] State.reset)) :=
  ⟨rfl, .inl rfl, by unfold Live; decide⟩

theorem witness_TickComesAfterItsStep :
    (let s := loaded 0xF107 [.step 0 0 false, .tick] (setDT 1 State.reset)
     s.pending = .step 0 0 false :: .tick :: [] ∧ Live s ∧ s.pc.toNat ≤ 0xFFE ∧ decode (WordAtPc s) = .instr (.ldVxDt 1)) ∧
    (let s := loaded 0xF115 [.step 0 0 false, .tick] (setDT 9 (regs 1 5 0 0))
     s.pending = .step 0 0 false :: .tick :: [] ∧ Live s ∧ s.pc.toNat ≤ 0xFFE ∧ decode (WordAtPc s) = .instr (.ldDtVx 1)) ∧
    (let s := loaded 0xF118 [.step 0 0 false, .tick] (setST 3 State.reset)
     s.pending = .step 0 0 false :: .tick :: [] ∧ Live s ∧ s.pc.toNat ≤ 0xFFE ∧ decode (WordAtPc s) = .instr (.ldStVx 1)) :=
  ⟨⟨rfl, .inl rfl, by decide, by decide⟩, ⟨rfl, .inl rfl, by decide, by decide⟩, ⟨rfl, .inl rfl, by decide, by decide⟩⟩

/-- The last clause: a step that ends live, and one that ends in STOPPED. -/
theorem witness_TickComesAfterItsStep_any :
    (∃ t, step (loaded 0x6005 [.step 0 0 false, .tick] State.reset) = .next t ∧ t.fsm = .running) ∧
    ∃ t, step (loaded 0x6005 [.step 0 0 true, .tick] State.reset) = .next t ∧ t.fsm = .stopped :=
  ⟨step_of_stepped (by decide), step_of_stepped (by decide)⟩

theorem witness_ResetPutsEveryStateAtItsValue (s : State) :
    (setPending [.reset (List.replicate 3584 0x12)] s).pending = .reset (List.replicate 3584 0x12) :: [] ∧
    (List.replicate 3584 (0x12 : Byte)).length ≤ 3584 ∧ ([] : List Byte).length ≤ 3584 :=
  ⟨rfl, by rw [List.length_replicate], by decide⟩

theorem witness_ImageTooLargeFaultsAtReset (s : State) :
    (setPending [.reset (List.replicate 3585 0x12)] s).pending = .reset (List.replicate 3585 0x12) :: [] ∧
    3584 < (List.replicate 3585 (0x12 : Byte)).length :=
  ⟨rfl, by rw [List.length_replicate]; decide⟩

theorem witness_FaultingStepIsPrecise :
    let s := loaded 0x00EE [.step 0 0 false] State.reset
    (∃ t, step s = .next t ∧ t.fsm = .faulted) ∧ StepComes s ∧ s.fsm ≠ .faulted :=
  ⟨step_of_stepped (by decide), .inr ⟨0, 0, false, [], rfl⟩, by decide⟩

theorem witness_InstructionFaultsByTheTable_faults :
    faultOf (.call 0x400) (depth 16) = some (.stackOverflow, 0) ∧ faultOf (.ret 0) (depth 0) = some (.stackUnderflow, 0) ∧
    faultOf (.drw 0 1 1) (index 0x1000 0 0) = some (.dataOob, 0x1000) ∧ faultOf (.drw 0 1 2) (index 0xFFF 0 0) = some (.dataOob, 0x1000) ∧
    faultOf (.ldB 0) (index 0xFFE 0 0) = some (.dataOob, 0x1000) ∧ faultOf (.ldIVx 0xF) (index 0xFF1 0 0) = some (.dataOob, 0x1000) ∧
    faultOf (.ldVxI 0) (index 0xFFFF 0 0) = some (.dataOob, 0xFFFF) ∧ faultOf (.skp 1) (regs 1 0x10 0 0) = some (.keyIndexOob, 0x10) ∧
    faultOf (.sknp 1) (regs 1 0xFF 0 0) = some (.keyIndexOob, 0xFF) := by decide

theorem witness_InstructionFaultsByTheTable_completes :
    faultOf (.call 0x400) (depth 15) = none ∧ faultOf (.ret 0) (depth 1) = none ∧ faultOf (.drw 0 1 0) (index 0xFFFF 0 0) = none ∧
    faultOf (.drw 0 1 1) (index 0xFFF 0 0) = none ∧ faultOf (.ldB 0) (index 0xFFD 0 0) = none ∧
    faultOf (.ldIVx 0xF) (index 0xFF0 0 0) = none ∧ faultOf (.ldVxI 0) (index 0xFFF 0 0) = none ∧
    faultOf (.skp 1) (regs 1 0x0F 0 0) = none ∧ faultOf (.sknp 1) (regs 1 0x0F 0 0) = none ∧ faultOf (.cls 0) State.reset = none := by
  decide

theorem witness_TerminalStatesAreLeftOnlyByReset :
    let s := setFsm .halted (setPending [.step 0 0 false] State.reset)
    (∃ t, step s = .next t) ∧ ¬ Live s ∧ ∀ image rest, s.pending ≠ .reset image :: rest :=
  ⟨step_next _, by unfold Live; decide, fun _ _ h => by cases h⟩

theorem witness_SkipsFollowTheirCondition :
    readV (regs 3 0x42 4 0x42) 3 = 0x42 ∧ readV (regs 3 0x42 4 0x42) 3 ≠ 0x43 ∧
    readV (regs 3 0x42 4 0x42) 3 = readV (regs 3 0x42 4 0x42) 4 ∧ readV (regs 3 0x42 4 0x42) 3 ≠ readV (regs 3 0x42 4 0x42) 5 := by decide

theorem witness_CallPushesTheReturnAddress : (depth 15).sp.val < 16 ∧ (depth 0).sp.val < 16 ∧ (depth 16).sp = 16 := by decide

theorem witness_RetPopsTheReturnAddress : 0 < (depth 1).sp.val ∧ 0 < (depth 16).sp.val ∧ (depth 0).sp = 0 := by decide

theorem witness_RetAfterCallResumesAfterTheCall :
    (depth 15).sp.val < 16 ∧ ∃ t u, exec (.call 0x400) (depth 15) = .next t ∧ exec (.ret 0) t = .next u :=
  ⟨by decide, _, _, rfl, rfl⟩

theorem witness_NextPcFollowsTheTable :
    (∃ t, exec (.seImm 3 0x42) (regs 3 0x42 0 0) = .next t) ∧ faultOf (.seImm 3 0x42) (regs 3 0x42 0 0) = none ∧
    (∃ t, exec (.ret 0) (depth 1) = .next t) ∧ faultOf (.ret 0) (depth 1) = none :=
  ⟨⟨_, rfl⟩, by decide, ⟨_, rfl⟩, by decide⟩

theorem witness_AddWritesSumAndCarry :
    (0 : Nibble) ≠ 0xF ∧ (readV (regs 0 0x7F 1 0x80) 0).toNat + (readV (regs 0 0x7F 1 0x80) 1).toNat ≤ 255 ∧
    255 < (readV (regs 0 0x80 1 0x80) 0).toNat + (readV (regs 0 0x80 1 0x80) 1).toNat := by decide

theorem witness_SubtractionsWriteDifferenceAndNotBorrow :
    (readV (regs 0 5 1 5) 1).toNat ≤ (readV (regs 0 5 1 5) 0).toNat ∧ (readV (regs 0 5 1 6) 0).toNat < (readV (regs 0 5 1 6) 1).toNat ∧
    (readV (regs 0 5 1 5) 0).toNat ≤ (readV (regs 0 5 1 5) 1).toNat ∧ (readV (regs 0 6 1 5) 1).toNat < (readV (regs 0 6 1 5) 0).toNat := by
  decide

theorem witness_ShiftsWriteOutgoingBitThenResult : (0xE : Nibble) ≠ 0xF := by decide

theorem witness_ArithmeticLawsOfResultAndFlag :
    (0 : Nibble) ≠ 0xF ∧ (∃ t, exec (.addReg 0 1) (regs 0 0x80 1 0x80) = .next t) ∧ (∃ t, exec (.sub 0 1) (regs 0 5 1 6) = .next t) ∧
    (∃ t, exec (.subn 0 0xF) (regs 0 5 1 6) = .next t) ∧ (∃ t, exec (.shr 0 1) (regs 0 5 1 6) = .next t) ∧
    (∃ t, exec (.shl 0 1) (regs 0 0x85 1 6) = .next t) :=
  ⟨by decide, ⟨_, rfl⟩, ⟨_, rfl⟩, ⟨_, rfl⟩, ⟨_, rfl⟩, ⟨_, rfl⟩⟩

theorem witness_BcdStoresThreeDigits :
    (index 0xFFD 0 0x9C).I.toNat + 2 ≤ 0xFFF ∧ 0xFFF < (index 0xFFE 0 0x9C).I.toNat + 2 := by decide

theorem witness_RegisterDumpStoresV0ToVx :
    (index 0xFF0 0 1).I.toNat + (0xF : Nibble).toNat ≤ 0xFFF ∧ 0xFFF < (index 0xFF1 0 1).I.toNat + (0xF : Nibble).toNat ∧
    (0xF : Nibble).toNat ≤ (0xF : Nibble).toNat := by decide

theorem witness_RegisterLoadReadsV0ToVx :
    (index 0xFFF 0 1).I.toNat + (0x0 : Nibble).toNat ≤ 0xFFF ∧ 0xFFF < (index 0x1000 0 1).I.toNat + (0x0 : Nibble).toNat ∧
    (0x0 : Nibble).toNat ≤ (0x0 : Nibble).toNat ∧ (0x0 : Nibble).toNat < (0x1 : Nibble).toNat := by decide

theorem witness_LoadAfterDumpRestoresRegisters :
    let s := index 0x400 0 1
    s.I.toNat + (2 : Nibble).toNat ≤ 0xFFF ∧ ∃ t v, exec (.ldIVx 2) s = .next t ∧ (setV 0 0x99 t).mem = t.mem ∧
      (setV 0 0x99 t).I = s.I ∧ exec (.ldVxI 2) (setV 0 0x99 t) = .next v ∧ (0 : Nibble).toNat ≤ (2 : Nibble).toNat :=
  ⟨by decide, _, _, rfl, rfl, rfl, rfl, by decide⟩

theorem witness_DumpedBytesAreFetched :
    let s := index 0x20A 0 0x62
    ∃ t, exec (.ldIVx 1) s = .next t ∧ s.I.toNat + (1 : Nibble).toNat ≤ 0xFFF ∧ (setPc 0x20A t).mem = t.mem ∧
      (1 : Nibble).toNat = (0 : Nibble).toNat + 1 ∧ (1 : Nibble).toNat ≤ (1 : Nibble).toNat ∧
      (setPc 0x20A t).pc.toNat = s.I.toNat + (0 : Nibble).toNat :=
  ⟨_, rfl, by decide, rfl, by decide, by decide, by decide⟩

theorem witness_OnlyBcdAndDumpWriteMemory :
    ∃ t, exec (.ldIVx 0) (index 0x400 0 1) = .next t ∧ readByte t.mem 0x400 ≠ readByte (index 0x400 0 1).mem 0x400 :=
  ⟨_, rfl, by decide⟩

/-- Sprite byte 0xC0 at 0x300, I there, V0 = V1 = 0. -/
def spriteAt : State := setMem (writeBytes [] 0x300 [0xC0]) (index 0x300 0 0)

theorem spriteAt_hits : SpriteHits 0 1 1 spriteAt 0 0 := ⟨0, by decide, 0, by decide, by decide, by decide, by decide⟩

theorem witness_DrwTogglesHitPixelsAndFlagsCollision :
    ((0 : Nibble).toNat = 0 ∨ (index 0xFFFF 0 0).I.toNat + (0 : Nibble).toNat - 1 ≤ 0xFFF) ∧
    ((1 : Nibble).toNat = 0 ∨ (index 0xFFF 0 0).I.toNat + (1 : Nibble).toNat - 1 ≤ 0xFFF) ∧
    (∃ px py, SpriteHits 0 1 1 (setFb (togglePixel Framebuffer.clear 0 0) spriteAt) px py ∧
      pixel (setFb (togglePixel Framebuffer.clear 0 0) spriteAt).fb px py = true) ∧
    (¬ ∃ px py, SpriteHits 0 1 1 spriteAt px py ∧ pixel spriteAt.fb px py = true) ∧
    0 < (2 : Nibble).toNat ∧ 0xFFF < (index 0xFFF 0 0).I.toNat + (2 : Nibble).toNat - 1 := by
  refine ⟨by decide, by decide, ⟨0, 0, spriteAt_hits, by decide⟩, ?_, by decide, by decide⟩
  rintro ⟨px, py, -, h⟩
  have : pixel spriteAt.fb px py = false := by simp [spriteAt, index, setMem, setI, setV, State.reset, Framebuffer.clear, pixel]
  rw [this] at h; cases h

theorem witness_DrawingTwiceRestoresThePicture :
    ∃ t v, ((1 : Nibble).toNat = 0 ∨ spriteAt.I.toNat + (1 : Nibble).toNat - 1 ≤ 0xFFF) ∧ exec (.drw 0 1 1) spriteAt = .next t ∧
      t.I = spriteAt.I ∧ readV t 0 = readV spriteAt 0 ∧ readV t 1 = readV spriteAt 1 ∧ SameBytes spriteAt t ∧
      exec (.drw 0 1 1) t = .next v :=
  ⟨_, _, by decide, rfl, rfl, rfl, rfl, fun _ => rfl, rfl⟩

theorem witness_KeySkipsFollowTheSampledKey :
    (readV (regs 1 0x0F 0 0) 1).toNat ≤ 0x0F ∧ 0x0F < (readV (regs 1 0x10 0 0) 1).toNat ∧
    (sampleInputs 0x8000 0 (regs 1 0x0F 0 0)).keys.getLsbD (readV (regs 1 0x0F 0 0) 1).toNat = true ∧
    (sampleInputs 0x7FFF 0 (regs 1 0x0F 0 0)).keys.getLsbD (readV (regs 1 0x0F 0 0) 1).toNat = false := by decide

theorem witness_KeyReadTakesLowestKeyOrWaits :
    (sampleInputs 0x8000 0 State.reset).keys.getLsbD 15 = true ∧
    (∀ j, j < 15 → (sampleInputs 0x8000 0 State.reset).keys.getLsbD j = false) ∧ (sampleInputs 0 0 State.reset).keys = 0 := by decide

theorem witness_WaitingStepWithoutKeyChangesNothing :
    let s := waiting [.step 0 0xA7 false]
    CoreInv s ∧ s.fsm = .waitingForKey ∧ s.pending = .step 0 0xA7 false :: [] :=
  ⟨waiting_coreInv _, rfl, rfl⟩

theorem witness_WaitEndsOnlyByKeyStopOrReset (es : List Event) :
    CoreInv (waiting es) ∧ (waiting es).fsm = .waitingForKey ∧ (waiting es).pending = es ∧ ∃ t, step (waiting es) = .next t :=
  ⟨waiting_coreInv _, rfl, rfl, step_next _⟩

theorem witness_StepKeepsTheInvariant :
    (CoreInv (waiting [.step 0x0280 0 false]) ∧ ∃ t, step (waiting [.step 0x0280 0 false]) = .next t ∧ t.fsm = .running) ∧
    CoreInv (loaded 0x6005 [.step 0 0 false] State.reset) ∧ ∃ t, step (loaded 0x6005 [.step 0 0 false] State.reset) = .next t :=
  ⟨⟨waiting_coreInv _, step_of_stepped (by decide)⟩, loaded_coreInv, step_next _⟩

theorem witness_StepKeepsPcBounds :
    let s := setPending [.step 0 0 false] (setPc 0x10FE (depth 16))
    PcInv s ∧ ∃ t, step s = .next t :=
  ⟨⟨by decide, by decide⟩, step_next _⟩

theorem witness_ParametersNeverChange : ∃ t, step (setPending [.reset [0x60, 0x05]] skipping) = .next t := step_next _

theorem witness_OnlyNamedInstructionsWriteEachRegister :
    (∃ t, exec (.ldI 0x300) State.reset = .next t ∧ t.I ≠ State.reset.I) ∧
    (∃ t, exec (.call 0x300) State.reset = .next t ∧ t.stack ≠ State.reset.stack ∧ t.sp ≠ State.reset.sp) ∧
    (∃ t, exec (.ldDtVx 0) (regs 0 1 1 0) = .next t ∧ t.DT ≠ (regs 0 1 1 0).DT) ∧
    (∃ t, exec (.ldStVx 0) (regs 0 1 1 0) = .next t ∧ t.ST ≠ (regs 0 1 1 0).ST) ∧
    (∃ t, exec (.cls 0) (setFb (togglePixel Framebuffer.clear 0 0) State.reset) = .next t ∧
      t.fb ≠ (setFb (togglePixel Framebuffer.clear 0 0) State.reset).fb) ∧
    (∃ t, exec (.ldVxK 3) State.reset = .next t ∧ (t.waitKey ≠ State.reset.waitKey ∨ t.waitReg ≠ State.reset.waitReg)) :=
  ⟨⟨_, rfl, by decide⟩, ⟨_, rfl, by decide, by decide⟩, ⟨_, rfl, by decide⟩, ⟨_, rfl, by decide⟩, ⟨_, rfl, by decide⟩,
    ⟨_, rfl, by decide⟩⟩

theorem witness_OnlyFlagInstructionsWriteVf :
    ∃ t, exec (.addReg 0 1) (regs 0 0x80 1 0x80) = .next t ∧ readV t 0xF ≠ readV (regs 0 0x80 1 0x80) 0xF :=
  ⟨_, rfl, by decide⟩

theorem witness_RandomByteReachesOnlyRnd :
    (∀ x kk, Instr.ldX 0 5 ≠ .rnd x kk) ∧ ∃ t, exec (.ldX 0 5) State.reset = .next t :=
  ⟨fun _ _ h => (by cases h), _, rfl⟩

theorem witness_KeypadReachesOnlyKeyInstructions :
    (∀ x, Instr.ldX 0 5 ≠ .skp x ∧ Instr.ldX 0 5 ≠ .sknp x ∧ Instr.ldX 0 5 ≠ .ldVxK x) ∧ ∃ t, exec (.ldX 0 5) State.reset = .next t :=
  ⟨fun _ => ⟨(by intro h; cases h), (by intro h; cases h), (by intro h; cases h)⟩, _, rfl⟩

theorem witness_SoundTimerIsReadByNoInstruction :
    (∀ x, Instr.ldVxDt 0 ≠ .ldStVx x) ∧ ∃ t, exec (.ldVxDt 0) State.reset = .next t :=
  ⟨fun _ h => (by cases h), _, rfl⟩

theorem witness_FramebufferIsReadOnlyByDrw :
    (∀ x y n, Instr.cls 0 ≠ .drw x y n) ∧ ∃ t, exec (.cls 0) State.reset = .next t :=
  ⟨fun _ _ _ h => (by cases h), _, rfl⟩

theorem witness_StaleStackEntriesAreUnobservable :
    let st := (depth 1).stack.set 1 0x999
    (∀ k, (hk : k < 16) → k < (depth 1).sp.val → st[k] = (depth 1).stack[k]) ∧ st ≠ (depth 1).stack ∧
      ∃ t, exec (.ret 0) (depth 1) = .next t :=
  ⟨by decide, by decide, _, rfl⟩

end Sys2Proof.Tests
end

section
/-! The open parameters of 00_scope.md R7 along a step: one lemma for each layer of R119 that can end a step. -/

namespace Sys2Proof.Machine

@[simp] theorem bootState_params (p : Params) (image : List Byte) : (bootState p image).params = p := by
  by_cases h : image.length ≤ Config.maxImage
  · rw [bootState_fits h]
  · rw [bootState_tooLarge (Nat.lt_of_not_le h), raiseFault_params]

@[simp] theorem takeReset_params (image : List Byte) (s : State) : (takeReset image s).params = s.params :=
  bootState_params s.params image

theorem fetchExecute_params {s t : State} (h : fetchExecute s = .next t) : t.params = s.params := by
  obtain ⟨a, -, rfl⟩ | ⟨w, -, -, rfl⟩ | ⟨w, i, u, -, -, hexec, rfl⟩ := fetchExecute_cases h
  · simp
  · simp
  · obtain ⟨-, -, -, -, -, hparams, -, -⟩ := exec_keeps_surroundings hexec
    rw [endStep_params, hparams]

theorem cycle_params {s t : State} {keypad : Word} {rnd : Byte} {stop : Bool} (h : cycle keypad rnd stop s = .next t) :
    t.params = s.params := by
  obtain ⟨-, rfl⟩ | ⟨-, -, rfl⟩ | ⟨-, -, hrun⟩ := cycle_cases h
  · simp
  · simp
  · rw [fetchExecute_params hrun, sampleInputs_params, clearStrobes_params]

theorem step_params {s t : State} (h : step s = .next t) : t.params = s.params := by
  obtain ⟨_, _, _, s₀, hs₀, hcycle⟩ | ⟨rest, -, rfl⟩ | ⟨image, rest, -, rfl⟩ := step_cases h
  · have hparams : s₀.params = s.params := by obtain rfl | ⟨_, -, rfl⟩ := hs₀ <;> simp
    rw [cycle_params hcycle, hparams]
  · simp
  · simp

/-- Settles O52, over the events a step can take: a Step (scheduled or not), a Tick, a Reset. -/
theorem parametersNeverChange : Obligations.ParametersNeverChange := fun _ _ h => step_params h

end Sys2Proof.Machine
end

section
/-! The execute stage as one equation: an instruction raises the fault of the table of 60_exceptions.md R241, or completes with a single state
that `completion` gives without a branch for the fault. -/

namespace Sys2Proof.Machine

open Sys2Proof.Claims

/-- The stack after a `Push(v)` that does not overflow (R130). -/
def pushed (v : Word) (s : State) : State :=
  { s with stack := s.stack.setIfInBounds s.sp.val v, sp := Fin.ofNat 17 (s.sp.val + 1) }

/-- The stack after a `Pop()` that does not underflow (R131): the entry stays (R26). -/
def popped (s : State) : State := { s with sp := Fin.ofNat 17 (s.sp.val - 1) }

/-- The two ends of LD Vx,K (R230): the lowest pressed key is stored, or the wait begins or goes on. -/
def keyRead (x : Nibble) (s : State) : State :=
  match lowestKey s.keys with
  | some k => next (endWait (setV x (BitVec.ofNat 8 k) s))
  | none => startWait x s

/-- The state an instruction completes with, where it raises no fault. -/
def completion (i : Instr) (s : State) : State :=
  match i with
  | .cls _ => next (setFb Framebuffer.clear s)
  | .ret z => setPc (nextPcOf (.ret z) s) (popped s)
  | .jp nnn => setPc (zextAddr nnn) s
  | .call nnn => setPc (zextAddr nnn) (pushed (adv s 2) s)
  | .seImm x kk => skipIf (decide (readV s x = kk)) s
  | .sneImm x kk => skipIf (decide (readV s x ≠ kk)) s
  | .seReg x y _ => skipIf (decide (readV s x = readV s y)) s
  | .sneReg x y _ => skipIf (decide (readV s x ≠ readV s y)) s
  | .ldX x kk => next (setV x kk s)
  | .addImm x kk => next (setV x (readV s x + kk) s)
  | .ldReg x y => next (setV x (readV s y) s)
  | .orReg x y => next (setV x (readV s x ||| readV s y) s)
  | .andReg x y => next (setV x (readV s x &&& readV s y) s)
  | .xorReg x y => next (setV x (readV s x ^^^ readV s y) s)
  | .addReg x y => next (writeResultThenFlag x (readV s x + readV s y) (carryFlag (readV s x) (readV s y)) s)
  | .sub x y => next (writeResultThenFlag x (readV s x - readV s y) (noBorrowFlag (readV s x) (readV s y)) s)
  | .shr x _ => next (writeFlagThenResult x (shrFlag (readV s x)) (readV s x >>> 1) s)
  | .subn x y => next (writeResultThenFlag x (readV s y - readV s x) (noBorrowFlag (readV s y) (readV s x)) s)
  | .shl x _ => next (writeFlagThenResult x (shlFlag (readV s x)) (readV s x <<< 1) s)
  | .ldI nnn => next (setI (zextAddr nnn) s)
  | .jpV0 nnn => setPc (zextAddr nnn + zextByte (readV s 0)) s
  | .rnd x kk => next (setV x (s.rndS &&& kk) s)
  | .drw x y n =>
    let d := drawSprite (readV s x) (readV s y) (spriteRows s n) s.fb
    next (setFb d.fb (setV vf (flagByte d.collision) s))
  | .skp x => skipIf (keyPressed s (readV s x).toNat) s
  | .sknp x => skipIf (!keyPressed s (readV s x).toNat) s
  | .ldVxDt x => next (setV x s.DT s)
  | .ldVxK x => keyRead x s
  | .ldDtVx x => next (setDT (readV s x) s)
  | .ldStVx x => next (setST (readV s x) s)
  | .addI x => next (setI (s.I + zextByte (readV s x)) s)
  | .ldF x => next (setI (glyphAddr (readV s x)) s)
  | .ldB x => next (setMem (writeBytes s.mem (addrI s) (bcdDigits (readV s x))) s)
  | .ldIVx x => next (setMem (writeBytes s.mem (addrI s) (dumpRegs s.V x)) s)
  | .ldVxI x => next (setRegs (loadRegs s.V 0 (readBytes s.mem (addrI s) (x.toNat + 1))) s)

/-! ### The stack and the key wait -/

@[simp] theorem keyRead_I (x : Nibble) (s : State) : (keyRead x s).I = s.I := by unfold keyRead; split <;> rfl
@[simp] theorem keyRead_stack (x : Nibble) (s : State) : (keyRead x s).stack = s.stack := by unfold keyRead; split <;> rfl
@[simp] theorem keyRead_sp (x : Nibble) (s : State) : (keyRead x s).sp = s.sp := by unfold keyRead; split <;> rfl
@[simp] theorem keyRead_DT (x : Nibble) (s : State) : (keyRead x s).DT = s.DT := by unfold keyRead; split <;> rfl
@[simp] theorem keyRead_ST (x : Nibble) (s : State) : (keyRead x s).ST = s.ST := by unfold keyRead; split <;> rfl
@[simp] theorem keyRead_fb (x : Nibble) (s : State) : (keyRead x s).fb = s.fb := by unfold keyRead; split <;> rfl

theorem readV_keyRead_ne {x y : Nibble} (h : y ≠ x) (s : State) : readV (keyRead x s) y = readV s y := by
  unfold keyRead
  split
  · rw [readV_next, readV_endWait, readV_setV_ne h]
  · rw [readV_startWait]

theorem pushed_sp_val {v : Word} {s : State} (h : s.sp.val < 16) : (pushed v s).sp.val = s.sp.val + 1 :=
  Nat.mod_eq_of_lt (by omega)

theorem popped_sp_val (s : State) : (popped s).sp.val = s.sp.val - 1 := Nat.mod_eq_of_lt (by omega)

theorem lt_16_of_faultOf_call {nnn : Addr12} {s : State} (h : faultOf (.call nnn) s = none) : s.sp.val < 16 := by
  have := s.sp.isLt
  simp only [faultOf, ite_eq_right_iff, reduceCtorEq, imp_false] at h
  omega

theorem pos_of_faultOf_ret {z : Nibble} {s : State} (h : faultOf (.ret z) s = none) : 0 < s.sp.val := by
  simp only [faultOf, ite_eq_right_iff, reduceCtorEq, imp_false] at h
  omega

theorem push_eq_pushed {v : Word} {s : State} (h : s.sp.val < 16) : push v s = some (pushed v s) := by
  refine push_eq_some.mpr ⟨h, ?_⟩
  have hsp : Fin.ofNat 17 (s.sp.val + 1) = ⟨s.sp.val + 1, Nat.succ_lt_succ h⟩ := Fin.ext (Nat.mod_eq_of_lt (by omega))
  have hstack : s.stack.setIfInBounds s.sp.val v = s.stack.set s.sp.val v h :=
    Vector.ext fun k hk => by rw [Vector.getElem_setIfInBounds hk, Vector.getElem_set h hk]
  rw [pushed, hsp, hstack]

theorem pop_eq_popped (z : Nibble) {s : State} (h : 0 < s.sp.val) : pop s = some (nextPcOf (.ret z) s, popped s) := by
  have hlt : s.sp.val - 1 < 16 := by omega
  have hsp : Fin.ofNat 17 (s.sp.val - 1) = ⟨s.sp.val - 1, Nat.lt_succ_of_lt hlt⟩ := Fin.ext (Nat.mod_eq_of_lt (by omega))
  refine pop_eq_some.mpr ⟨h, hlt, dif_pos hlt, ?_⟩
  rw [popped, hsp]

/-! ### The equation -/

theorem firstOutOfRange_of_pos {base len : Nat} (hlen : 0 < len) (h : 0x1000 < base + len) :
    firstOutOfRange base len = some (max base 0x1000) :=
  firstOutOfRange_eq_some.mpr ⟨hlen, h, rfl⟩

/-- An instruction without a fault in the table of R241 completes. -/
theorem exec_of_faultOf_eq_none {i : Instr} {s : State} (h : faultOf i s = none) : exec i s = .next (completion i s) := by
  cases i
  case ret z => simp only [exec, execRet, pop_eq_popped z (pos_of_faultOf_ret h), completion]
  case call nnn => simp only [exec, execCall, push_eq_pushed (lt_16_of_faultOf_call h), completion]
  case ldVxK x => cases hk : lowestKey s.keys <;> simp only [exec, execLdVxK, hk, completion, keyRead]
  all_goals simp only [faultOf, ite_eq_right_iff, reduceCtorEq, imp_false, not_lt] at h
  case drw x y n =>
    have hr : firstOutOfRange s.I.toNat n.toNat = none := firstOutOfRange_eq_none.mpr (by omega)
    simp only [exec, execDrw, addrI, hr, completion]
  case skp x => simp only [exec, execSkp, keyOutOfRange_eq_none.mpr h, completion]
  case sknp x => simp only [exec, execSknp, keyOutOfRange_eq_none.mpr h, completion]
  case ldB x =>
    have hr : firstOutOfRange s.I.toNat 3 = none := firstOutOfRange_eq_none.mpr (by omega)
    simp only [exec, execLdB, addrI, hr, completion]
  case ldIVx x =>
    have hr : firstOutOfRange s.I.toNat (x.toNat + 1) = none := firstOutOfRange_eq_none.mpr (by omega)
    simp only [exec, execLdIVx, addrI, hr, completion]
  case ldVxI x =>
    have hr : firstOutOfRange s.I.toNat (x.toNat + 1) = none := firstOutOfRange_eq_none.mpr (by omega)
    simp only [exec, execLdVxI, addrI, hr, completion]
  all_goals rfl

/-- An instruction with a fault in the table of R241 raises it, with its own word in the record. -/
theorem exec_of_faultOf_eq_some {i : Instr} {s : State} {c : FaultCause} {a : Nat} (h : faultOf i s = some (c, a)) :
    exec i s = .next (raiseFault c a (encode i) s) := by
  cases i <;> simp only [faultOf, Option.ite_none_right_eq_some, Option.some.injEq, Prod.mk.injEq, reduceCtorEq] at h <;>
    obtain ⟨hc, rfl, rfl⟩ := h
  case ret z => simp only [exec, execRet, pop_eq_none.mpr (Fin.ext hc)]
  case call nnn => simp only [exec, execCall, push_eq_none.mpr (Fin.ext hc)]
  case drw x y n => simp only [exec, execDrw, addrI, firstOutOfRange_of_pos hc.1 (show 0x1000 < s.I.toNat + n.toNat by omega)]
  case skp x => simp only [exec, execSkp, keyOutOfRange_eq_some.mpr ⟨hc, rfl⟩]
  case sknp x => simp only [exec, execSknp, keyOutOfRange_eq_some.mpr ⟨hc, rfl⟩]
  case ldB x =>
    simp only [exec, execLdB, addrI, firstOutOfRange_of_pos (by decide) (show 0x1000 < s.I.toNat + 3 by omega)]
  case ldIVx x =>
    simp only [exec, execLdIVx, addrI,
      firstOutOfRange_of_pos (Nat.succ_pos _) (show 0x1000 < s.I.toNat + (x.toNat + 1) by omega)]
  case ldVxI x =>
    simp only [exec, execLdVxI, addrI,
      firstOutOfRange_of_pos (Nat.succ_pos _) (show 0x1000 < s.I.toNat + (x.toNat + 1) by omega)]

/-- The two ends of the execute stage. -/
theorem exec_cases {i : Instr} {s t : State} (h : exec i s = .next t) :
    (∃ c a, faultOf i s = some (c, a) ∧ t = raiseFault c a (encode i) s) ∨ (faultOf i s = none ∧ t = completion i s) := by
  cases hf : faultOf i s with
  | none => rw [exec_of_faultOf_eq_none hf] at h; cases h; exact .inr ⟨rfl, rfl⟩
  | some f => rw [exec_of_faultOf_eq_some hf] at h; cases h; exact .inl ⟨_, _, rfl, rfl⟩

/-- The fault condition reads the registers, I and sp only. -/
theorem faultOf_congr (i : Instr) {s s' : State} (hV : s'.V = s.V) (hI : s'.I = s.I) (hsp : s'.sp = s.sp) :
    faultOf i s' = faultOf i s := by
  have hread : ∀ x, readV s' x = readV s x := fun x => by simp only [readV, hV]
  cases i <;> simp only [faultOf, hread, hI, hsp]

/-- Noninterference, in general: if a change `f` of the state shows neither in the fault condition nor, but for itself, in the completion, then
it does not show in the execute stage. -/
theorem exec_commutes {i : Instr} {s t : State} {f : State → State} (hfault : faultOf i (f s) = faultOf i s)
    (hraise : ∀ c a w, raiseFault c a w (f s) = f (raiseFault c a w s)) (hcompletion : completion i (f s) = f (completion i s))
    (h : exec i s = .next t) : exec i (f s) = .next (f t) := by
  obtain ⟨c, a, hf, rfl⟩ | ⟨hf, rfl⟩ := exec_cases h
  · rw [exec_of_faultOf_eq_some (hfault.trans hf), hraise]
  · rw [exec_of_faultOf_eq_none (hfault.trans hf), hcompletion]

end Sys2Proof.Machine
end

section
/-! Which instruction writes which register (10_state.md R21 to R31): no fault writes one, and a completion only its own. -/

namespace Sys2Proof.Machine

/-! ### The writers of each register -/

/-- What no fault writes changes only by a completion. -/
theorem exec_field {α : Type} {p : State → α} {P : Prop} {i : Instr} {s t : State}
    (hraise : ∀ c a w, p (raiseFault c a w s) = p s) (hcompletion : p (completion i s) = p s ∨ P) (h : exec i s = .next t) :
    p t = p s ∨ P := by
  obtain ⟨c, a, -, rfl⟩ | ⟨-, rfl⟩ := exec_cases h
  · exact .inl (hraise ..)
  · exact hcompletion

section
variable {i : Instr} {s t : State}

theorem exec_I (h : exec i s = .next t) : t.I = s.I ∨ (∃ nnn, i = .ldI nnn) ∨ ∃ x, i = .addI x ∨ i = .ldF x := by
  refine exec_field (fun _ _ _ => rfl) ?_ h
  cases i
  case ldI nnn => exact .inr (.inl ⟨nnn, rfl⟩)
  case addI x => exact .inr (.inr ⟨x, .inl rfl⟩)
  case ldF x => exact .inr (.inr ⟨x, .inr rfl⟩)
  case ldVxK x => exact .inl (keyRead_I x s)
  all_goals exact .inl rfl

theorem exec_stack (h : exec i s = .next t) : t.stack = s.stack ∨ ∃ nnn, i = .call nnn := by
  refine exec_field (fun _ _ _ => rfl) ?_ h
  cases i
  case call nnn => exact .inr ⟨nnn, rfl⟩
  case ldVxK x => exact .inl (keyRead_stack x s)
  all_goals exact .inl rfl

theorem exec_sp (h : exec i s = .next t) : t.sp = s.sp ∨ (∃ nnn, i = .call nnn) ∨ ∃ z, i = .ret z := by
  refine exec_field (fun _ _ _ => rfl) ?_ h
  cases i
  case call nnn => exact .inr (.inl ⟨nnn, rfl⟩)
  case ret z => exact .inr (.inr ⟨z, rfl⟩)
  case ldVxK x => exact .inl (keyRead_sp x s)
  all_goals exact .inl rfl

theorem exec_DT (h : exec i s = .next t) : t.DT = s.DT ∨ ∃ x, i = .ldDtVx x := by
  refine exec_field (fun _ _ _ => rfl) ?_ h
  cases i
  case ldDtVx x => exact .inr ⟨x, rfl⟩
  case ldVxK x => exact .inl (keyRead_DT x s)
  all_goals exact .inl rfl

theorem exec_ST (h : exec i s = .next t) : t.ST = s.ST ∨ ∃ x, i = .ldStVx x := by
  refine exec_field (fun _ _ _ => rfl) ?_ h
  cases i
  case ldStVx x => exact .inr ⟨x, rfl⟩
  case ldVxK x => exact .inl (keyRead_ST x s)
  all_goals exact .inl rfl

theorem exec_fb (h : exec i s = .next t) : t.fb = s.fb ∨ (∃ z, i = .cls z) ∨ ∃ x y n, i = .drw x y n := by
  refine exec_field (fun _ _ _ => rfl) ?_ h
  cases i
  case cls z => exact .inr (.inl ⟨z, rfl⟩)
  case drw x y n => exact .inr (.inr ⟨x, y, n, rfl⟩)
  case ldVxK x => exact .inl (keyRead_fb x s)
  all_goals exact .inl rfl

theorem exec_waitState (h : exec i s = .next t) : (t.waitKey = s.waitKey ∧ t.waitReg = s.waitReg) ∨ ∃ x, i = .ldVxK x := by
  obtain ⟨c, a, -, rfl⟩ | ⟨-, -, hkey, hreg, -⟩ | ⟨x, hi, -⟩ := exec_fate h
  · exact .inl ⟨rfl, rfl⟩
  · exact .inl ⟨hkey, hreg⟩
  · exact .inr ⟨x, hi⟩

end

/-- Settles O53, register by register. -/
theorem onlyNamedInstructionsWriteEachRegister : Obligations.OnlyNamedInstructionsWriteEachRegister := fun _ _ _ h =>
  ⟨(exec_I h).resolve_left, (exec_stack h).resolve_left, (exec_sp h).resolve_left, (exec_DT h).resolve_left,
    (exec_ST h).resolve_left, (exec_fb h).resolve_left, fun hne => (exec_waitState h).resolve_left fun heq =>
      hne.elim (fun hkey => hkey heq.1) (fun hreg => hreg heq.2)⟩

/-! ### VF -/

theorem eq_of_readV_setV_ne {x y : Nibble} {b : Byte} {s : State} (h : readV (setV x b s) y ≠ readV s y) : x = y :=
  by_contra fun hne => h (readV_setV_ne (Ne.symm hne) b s)

theorem eq_of_readV_keyRead_ne {x y : Nibble} {s : State} (h : readV (keyRead x s) y ≠ readV s y) : x = y :=
  by_contra fun hne => h (readV_keyRead_ne (Ne.symm hne) s)

/-- LD Vx,[I] writes VF only as the last of V0..VF. -/
theorem eq_vf_of_load_ne {x : Nibble} {s : State} (h : readV (completion (.ldVxI x) s) vf ≠ readV s vf) : x = vf := by
  by_contra hne
  have hlt : ¬ vf.toNat < x.toNat + 1 := by bv_omega
  simp only [completion, readV_next, readV_setRegs_loadRegs, length_readBytes, dif_neg hlt, ne_eq, not_true_eq_false] at h

/-- Settles O54: a completion that writes a register writes a flag too, or only its destination. -/
theorem onlyFlagInstructionsWriteVf : Obligations.OnlyFlagInstructionsWriteVf := by
  intro i s t h hne
  obtain ⟨c, a, -, rfl⟩ | ⟨-, rfl⟩ := exec_cases h
  · exact absurd (readV_raiseFault s vf c a _) hne
  cases i
  case addReg x y => exact .inl ⟨x, y, .inl rfl⟩
  case sub x y => exact .inl ⟨x, y, .inr (.inl rfl)⟩
  case shr x y => exact .inl ⟨x, y, .inr (.inr (.inl rfl))⟩
  case subn x y => exact .inl ⟨x, y, .inr (.inr (.inr (.inl rfl)))⟩
  case shl x y => exact .inl ⟨x, y, .inr (.inr (.inr (.inr rfl)))⟩
  case drw x y n => exact .inr (.inl ⟨x, y, n, rfl⟩)
  case ldX x kk => obtain rfl := eq_of_readV_setV_ne hne; simp
  case addImm x kk => obtain rfl := eq_of_readV_setV_ne hne; simp
  case rnd x kk => obtain rfl := eq_of_readV_setV_ne hne; simp
  case ldReg x y => obtain rfl := eq_of_readV_setV_ne hne; simp
  case orReg x y => obtain rfl := eq_of_readV_setV_ne hne; simp
  case andReg x y => obtain rfl := eq_of_readV_setV_ne hne; simp
  case xorReg x y => obtain rfl := eq_of_readV_setV_ne hne; simp
  case ldVxDt x => obtain rfl := eq_of_readV_setV_ne hne; simp
  case ldVxK x => obtain rfl := eq_of_readV_keyRead_ne hne; simp
  case ldVxI x => obtain rfl := eq_vf_of_load_ne hne; simp
  all_goals exact absurd rfl hne

end Sys2Proof.Machine
end

section
/-! Noninterference of the keypad, the sound timer, the framebuffer and the stale stack entries: what the fault condition and the completion of
an instruction read. -/

namespace Sys2Proof.Machine

open Sys2Proof.Claims

theorem keyRead_setST (x : Nibble) (v : Byte) (s : State) : keyRead x (setST v s) = setST v (keyRead x s) := by
  cases hk : lowestKey s.keys <;> simp only [keyRead, setST_keys, hk] <;> rfl

theorem keyRead_setFb (x : Nibble) (f : Framebuffer) (s : State) : keyRead x (setFb f s) = setFb f (keyRead x s) := by
  cases hk : lowestKey s.keys <;> simp only [keyRead, setFb_keys, hk] <;> rfl

/-- Settles O56: the keypad sample stands in no fault condition, and in no completion but those of the three instructions R30 names. -/
theorem keypadReachesOnlyKeyInstructions : Obligations.KeypadReachesOnlyKeyInstructions := by
  intro i s k t hi h
  refine exec_commutes (f := fun s => { s with keys := k }) (faultOf_congr i rfl rfl rfl) (fun _ _ _ => rfl) ?_ h
  cases i
  case skp x => exact absurd rfl (hi x).1
  case sknp x => exact absurd rfl (hi x).2.1
  case ldVxK x => exact absurd rfl (hi x).2.2
  all_goals rfl

/-- Settles O57: ST stands in no fault condition and in no completion, and LD ST,Vx writes over it. -/
theorem soundTimerIsReadByNoInstruction : Obligations.SoundTimerIsReadByNoInstruction := by
  refine ⟨fun i s v t hi h => ?_, fun _ _ _ => rfl⟩
  refine exec_commutes (f := setST v) (faultOf_congr i rfl rfl rfl) (fun _ _ _ => rfl) ?_ h
  cases i
  case ldStVx x => exact absurd rfl (hi x)
  case ldVxK x => exact keyRead_setST x v s
  all_goals rfl

/-- Settles O58: CLS writes over the framebuffer, and no other instruction but DRW has it in its fault condition or its completion. -/
theorem framebufferIsReadOnlyByDrw : Obligations.FramebufferIsReadOnlyByDrw := by
  intro i s f t hi h
  by_cases hcls : ∃ z, i = .cls z
  · obtain ⟨z, rfl⟩ := hcls
    cases h
    exact ⟨Framebuffer.clear, rfl⟩
  · refine ⟨f, exec_commutes (f := setFb f) (faultOf_congr i rfl rfl rfl) (fun _ _ _ => rfl) ?_ h⟩
    cases i
    case cls z => exact absurd ⟨z, rfl⟩ hcls
    case drw x y n => exact absurd rfl (hi x y n)
    case ldVxK x => exact keyRead_setFb x f s
    all_goals rfl

/-! ### Stale stack entries -/

/-- Only CALL makes the stack deeper. -/
theorem exec_sp_le {i : Instr} {s t : State} (hi : ∀ nnn, i ≠ .call nnn) (h : exec i s = .next t) : t.sp.val ≤ s.sp.val := by
  obtain hsp | ⟨nnn, rfl⟩ | ⟨z, rfl⟩ := exec_sp h
  · rw [hsp]
  · exact absurd rfl (hi nnn)
  · obtain ⟨c, a, -, rfl⟩ | ⟨-, rfl⟩ := exec_cases h
    · exact Nat.le_refl _
    · exact (popped_sp_val s).trans_le (Nat.sub_le _ _)

theorem keyRead_stackUpdate (x : Nibble) (st : Vector Word 16) (s : State) :
    keyRead x { s with stack := st } = { keyRead x s with stack := st } := by
  cases hk : lowestKey s.keys <;> simp only [keyRead, hk] <;> rfl

/-- The entry a RET reads is a live one, and no other completion but CALL's has the stack in it. -/
theorem completion_stackUpdate {i : Instr} {s : State} {st : Vector Word 16} (hi : ∀ nnn, i ≠ .call nnn)
    (hlive : ∀ k, (hk : k < 16) → k < s.sp.val → st[k] = s.stack[k]) (hfault : faultOf i s = none) :
    completion i { s with stack := st } = { completion i s with stack := st } := by
  cases i
  case call nnn => exact absurd rfl (hi nnn)
  case ret z =>
    have hpos := pos_of_faultOf_ret hfault
    have hlt : s.sp.val - 1 < 16 := by omega
    simp only [completion, nextPcOf, dif_pos hlt, hlive _ hlt (by omega)]
    rfl
  case ldVxK x => exact keyRead_stackUpdate x st s
  all_goals rfl

/-- A push at the same depth keeps two stacks the same in their live entries. -/
theorem pushed_stackUpdate_live {v : Word} {s : State} {st : Vector Word 16} (hsp : s.sp.val < 16)
    (hlive : ∀ k, (hk : k < 16) → k < s.sp.val → st[k] = s.stack[k]) (k : Nat) (hk : k < 16) (hlt : k < (pushed v s).sp.val) :
    (pushed v { s with stack := st }).stack[k] = (pushed v s).stack[k] := by
  rw [pushed_sp_val hsp] at hlt
  simp only [pushed, Vector.getElem_setIfInBounds hk]
  split
  · rfl
  · exact hlive k hk (by omega)

/-- Settles O59: the live entries stay below sp, and a CALL puts the same return address on both stacks. -/
theorem staleStackEntriesAreUnobservable : Obligations.StaleStackEntriesAreUnobservable := by
  intro i s t st hlive h
  have hfault : faultOf i { s with stack := st } = faultOf i s := faultOf_congr i rfl rfl rfl
  obtain ⟨c, a, hf, rfl⟩ | ⟨hf, rfl⟩ := exec_cases h
  · exact ⟨st, exec_of_faultOf_eq_some (hfault.trans hf), hlive⟩
  have h' := exec_of_faultOf_eq_none (hfault.trans hf)
  by_cases hcall : ∃ nnn, i = .call nnn
  · obtain ⟨nnn, rfl⟩ := hcall
    exact ⟨(pushed (adv s 2) { s with stack := st }).stack, h', pushed_stackUpdate_live (lt_16_of_faultOf_call hf) hlive⟩
  · have hi : ∀ nnn, i ≠ .call nnn := not_exists.mp hcall
    have hstack : (completion i s).stack = s.stack := (exec_stack h).resolve_right hcall
    refine ⟨st, h'.trans (congrArg _ (completion_stackUpdate hi hlive hf)), fun k hk hlt => ?_⟩
    simp only [hstack]
    exact hlive k hk (hlt.trans_le (exec_sp_le hi h))

end Sys2Proof.Machine
end

section
/-! Reset (O15, O49): the state after a Reset event field by field, and that it meets both invariants. -/

namespace Sys2Proof.Machine

theorem readByte_fontMemory_lt (font : FontTable) {a : Nat} (h : a < 80) : readByte (fontMemory font) a = font[a] := by
  have hbyte := readByte_writeBytes_inside font.toList [] 0 a (by simpa using h)
  rw [Nat.zero_add] at hbyte
  rw [fontMemory, hbyte, Vector.getElem_toList]

theorem readByte_fontMemory_ge (font : FontTable) {a : Nat} (h : 80 ≤ a) : readByte (fontMemory font) a = 0 := by
  rw [fontMemory, readByte_writeBytes_outside _ _ _ _ (.inr (by simpa using h)), readByte_nil, unlistedByte, dif_neg (by omega)]

theorem takeReset_fits {image : List Byte} {s : State} (h : image.length ≤ Config.maxImage) :
    takeReset image s = { State.reset with
      params := s.params, mem := writeBytes (fontMemory s.params.fontTable) Config.entry image, pending := s.pending,
      draws := s.draws } := by
  rw [takeReset, bootState_fits h]

@[simp] theorem readV_reset (x : Nibble) : readV State.reset x = 0 := Vector.getElem_replicate _

/-- Settles O15: the image lies above the font, so a byte of either is read from the write that put it there. -/
theorem resetPutsEveryStateAtItsValue : Obligations.ResetPutsEveryStateAtItsValue := by
  intro s image rest hp hlen
  have hstep : step s = .next (takeReset image (setPending rest s)) := step_pending_cons hp
  rw [takeReset_fits hlen] at hstep
  refine ⟨_, hstep, readV_reset, rfl, rfl, fun k => Vector.getElem_replicate _, rfl, rfl, rfl, pixel_clear, rfl, rfl, rfl, rfl,
    rfl, rfl, fun a ha => ?_, fun j hj => ?_, fun a ha hout => ?_⟩
  · exact (readByte_writeBytes_outside _ _ _ _ (.inl (Nat.lt_trans ha (by decide)))).trans (readByte_fontMemory_lt _ ha)
  · exact readByte_writeBytes_inside image _ _ j hj
  · exact (readByte_writeBytes_outside _ _ _ _ hout).trans (readByte_fontMemory_ge _ ha)

/-! ### The invariants after reset -/

theorem coreInv_bootState (p : Params) (image : List Byte) : CoreInv (bootState p image) := by
  have hwf := wf_bootState p image
  by_cases h : image.length ≤ Config.maxImage
  · rw [bootState_fits h] at hwf ⊢
    exact ⟨hwf, ⟨nofun, fun _ => rfl⟩, ⟨nofun, fun _ => rfl⟩⟩
  · rw [bootState_tooLarge (by omega)] at hwf ⊢
    exact ⟨hwf, ⟨nofun, nofun⟩, ⟨fun _ => nofun, fun hne => absurd rfl hne⟩⟩

theorem bootState_pc (p : Params) (image : List Byte) : (bootState p image).pc = 0x200 := by
  by_cases h : image.length ≤ Config.maxImage
  · rw [bootState_fits h]; rfl
  · rw [bootState_tooLarge (by omega)]; rfl

theorem bootState_sp (p : Params) (image : List Byte) : (bootState p image).sp = 0 := by
  by_cases h : image.length ≤ Config.maxImage
  · rw [bootState_fits h]; rfl
  · rw [bootState_tooLarge (by omega)]; rfl

/-- At depth 0 there is no live return address to bound. -/
theorem pcInv_bootState (p : Params) (image : List Byte) : PcInv (bootState p image) := by
  refine ⟨by rw [bootState_pc]; decide, fun k _ hlive => ?_⟩
  rw [bootState_sp] at hlive
  exact absurd hlive (Nat.not_lt_zero k)

/-- Settles O49: `State.reset` is a boot state itself. -/
theorem resetMeetsTheInvariants : Obligations.ResetMeetsTheInvariants :=
  ⟨bootState_default ▸ ⟨coreInv_bootState _ _, pcInv_bootState _ _⟩, fun p image => ⟨coreInv_bootState p image, pcInv_bootState p image⟩⟩

end Sys2Proof.Machine
end

section
/-! The invariant of a run (O50), along the layers of a step (40_cycle_fsm.md R119), and the terminal states (O19). -/

namespace Sys2Proof.Machine

open Sys2Proof.Claims

theorem live_iff {s : State} : s.fsm.live = true ↔ Live s := by
  unfold Live
  cases s.fsm <;> decide

/-- Settles O19: with no Reset the event is a Step or a Tick, and neither acts in a terminal state. -/
theorem terminalStatesAreLeftOnlyByReset : Obligations.TerminalStatesAreLeftOnlyByReset := by
  intro s t h hterminal hreset
  have hdead : s.fsm.live = false := Bool.eq_false_iff.mpr (mt live_iff.mp hterminal)
  obtain ⟨k, r, stop, s₀, hs₀, hcycle⟩ | ⟨rest, -, rfl⟩ | ⟨image, rest, hp, -⟩ := step_cases h
  · have hdead₀ : s₀.fsm.live = false := by obtain rfl | ⟨_, -, rfl⟩ := hs₀ <;> exact hdead
    rw [cycle_terminal k r stop hdead₀] at hcycle
    cases hcycle
    obtain rfl | ⟨_, -, rfl⟩ := hs₀ <;> rfl
  · rw [tick, clearStrobes_fsm, setPending_fsm, hdead]
    rfl
  · exact absurd hp (hreset image rest)

theorem fetch_congr {s t : State} (hpc : t.pc = s.pc) (hmem : t.mem = s.mem) : fetch t = fetch s := by
  simp only [fetch, hpc, hmem]

/-- The invariant is about memory, pc, the wait state, the control state and the fault record only. -/
theorem coreInv_congr {s t : State} (hs : CoreInv s) (hmem : t.mem = s.mem) (hpc : t.pc = s.pc) (hkey : t.waitKey = s.waitKey)
    (hreg : t.waitReg = s.waitReg) (hfsm : t.fsm = s.fsm) (hfault : t.fault = s.fault) : CoreInv t := by
  obtain ⟨hwf, hwait, hrecord⟩ := hs
  refine ⟨by rwa [hmem], ?_, ?_⟩
  · simpa only [WaitInv, Fetches, fetch_congr hpc hmem, hfsm, hkey, hreg] using hwait
  · simpa only [FaultInv, hfsm, hfault] using hrecord

theorem coreInv_clearStrobes {s : State} (hs : CoreInv s) : CoreInv (clearStrobes s) :=
  coreInv_congr hs rfl rfl rfl rfl rfl rfl

theorem coreInv_endStep {s : State} (hs : CoreInv s) : CoreInv (endStep s) :=
  coreInv_congr hs rfl rfl rfl rfl rfl rfl

theorem coreInv_tick {s : State} (hs : CoreInv s) : CoreInv (tick s) :=
  coreInv_congr hs (tick_mem s) (tick_pc s) (tick_waitKey s) (tick_waitReg s) (tick_fsm s) (tick_fault s)

theorem coreInv_takeReset (image : List Byte) (s : State) : CoreInv (takeReset image s) :=
  coreInv_congr (coreInv_bootState s.params image) rfl rfl rfl rfl rfl rfl

theorem coreInv_raiseFault {c : FaultCause} (hc : c ≠ .none) (a : Nat) (w : Word) {s : State} (hs : CoreInv s) :
    CoreInv (raiseFault c a w s) :=
  ⟨hs.mem, ⟨nofun, nofun⟩, ⟨fun _ => hc, fun hne => absurd rfl hne⟩⟩

/-- In a live state no fault has been recorded. -/
theorem fault_eq_zero_of_live {s : State} (hs : CoreInv s) (hlive : s.fsm.live = true) : s.fault = FaultRecord.zero :=
  hs.fault.2 fun hfaulted => by rw [hfaulted] at hlive; cases hlive

/-- In a live state that fetches another instruction than LD Vx,K, or none, the core is running and `wait_key` is clear (R231). -/
theorem running_of_fetch {s : State} {w : Word} (hs : CoreInv s) (hlive : s.fsm.live = true) (hf : fetch s = .word w)
    (hd : ∀ x, decode w ≠ .instr (.ldVxK x)) : s.fsm = .running ∧ s.waitKey = false := by
  obtain hrun | hwait := live_iff.mp hlive
  · exact ⟨hrun, hs.wait.2 hrun⟩
  · obtain ⟨-, w', hf', hd'⟩ := hs.wait.1 hwait
    obtain rfl : w' = w := Fetched.word.inj (hf'.symm.trans hf)
    exact absurd hd' (hd _)

theorem coreInv_takeDecodeFailure {w : Word} {s : State} (hs : CoreInv s) (hlive : s.fsm.live = true) (hf : fetch s = .word w)
    (hd : decode w = .failure w) : CoreInv (takeDecodeFailure w s) := by
  obtain ⟨-, hkey⟩ := running_of_fetch hs hlive hf (by simp [hd])
  have hfault : (takeDecodeFailure w s).fault = FaultRecord.zero :=
    (takeDecodeFailure_fault w s).trans (fault_eq_zero_of_live hs hlive)
  have hend := takeDecodeFailure_fsm_cases w s
  refine ⟨(takeDecodeFailure_mem w s).symm ▸ hs.mem, ⟨fun hwait => ?_, fun _ => (takeDecodeFailure_waitKey w s).trans hkey⟩,
    ⟨fun hfaulted => ?_, fun _ => hfault⟩⟩
  · simp [hwait] at hend
  · simp [hfaulted] at hend

theorem coreInv_exec {i : Instr} {s t : State} {w : Word} (hs : CoreInv s) (hlive : s.fsm.live = true) (hf : fetch s = .word w)
    (hd : decode w = .instr i) (h : exec i s = .next t) : CoreInv t := by
  have hmem := exec_keeps_wf h hs.mem
  have hzero := fault_eq_zero_of_live hs hlive
  obtain ⟨c, a, hc, rfl⟩ | ⟨hi, hfsm, hkey, -, hfault⟩ | ⟨x, rfl, ⟨-, rfl⟩ | ⟨k, -, rfl⟩⟩ := exec_fate h
  · exact coreInv_raiseFault hc a _ hs
  · obtain ⟨hrun, hclear⟩ := running_of_fetch hs hlive hf (by simpa [hd] using hi)
    rw [hrun] at hfsm
    rw [hclear] at hkey
    rw [hzero] at hfault
    exact ⟨hmem, ⟨fun hwait => (by rw [hfsm] at hwait; cases hwait), fun _ => hkey⟩,
      ⟨fun hfaulted => (by rw [hfsm] at hfaulted; cases hfaulted), fun _ => hfault⟩⟩
  · exact ⟨hmem, ⟨fun _ => ⟨rfl, w, hf, hd⟩, nofun⟩, ⟨nofun, fun _ => hzero⟩⟩
  · exact ⟨hmem, ⟨nofun, fun _ => rfl⟩, ⟨nofun, fun _ => hzero⟩⟩

theorem coreInv_fetchExecute {s t : State} (hs : CoreInv s) (hlive : s.fsm.live = true) (h : fetchExecute s = .next t) :
    CoreInv t := by
  obtain ⟨a, -, rfl⟩ | ⟨w, hf, hd, rfl⟩ | ⟨w, i, u, hf, hd, hexec, rfl⟩ := fetchExecute_cases h
  · exact coreInv_endStep (coreInv_raiseFault (by decide) a 0 hs)
  · exact coreInv_endStep (coreInv_takeDecodeFailure hs hlive hf hd)
  · exact coreInv_endStep (coreInv_exec hs hlive hf hd hexec)

/-- A stop ends a wait without clearing `wait_key` (log 10), which the invariant asks for in RUNNING only. -/
theorem coreInv_stop {s : State} (hs : CoreInv s) (hlive : s.fsm.live = true) : CoreInv (setFsm .stopped s) :=
  ⟨hs.mem, ⟨nofun, nofun⟩, ⟨nofun, fun _ => (setFsm_fault s _).trans (fault_eq_zero_of_live hs hlive)⟩⟩

theorem coreInv_cycle {s t : State} {k : Word} {r : Byte} {stop : Bool} (hs : CoreInv s) (h : cycle k r stop s = .next t) :
    CoreInv t := by
  obtain ⟨-, rfl⟩ | ⟨hlive, -, rfl⟩ | ⟨hlive, -, hrun⟩ := cycle_cases h
  · exact coreInv_clearStrobes hs
  · exact coreInv_stop (coreInv_clearStrobes hs) hlive
  · exact coreInv_fetchExecute (s := sampleInputs k r (clearStrobes s)) (coreInv_congr hs rfl rfl rfl rfl rfl rfl) hlive hrun

/-- Settles O50, over the events a step can take. -/
theorem stepKeepsTheInvariant : Obligations.StepKeepsTheInvariant := by
  intro s t hs h
  obtain ⟨k, r, stop, s₀, hs₀, hcycle⟩ | ⟨rest, -, rfl⟩ | ⟨image, rest, -, rfl⟩ := step_cases h
  · refine coreInv_cycle ?_ hcycle
    obtain rfl | ⟨rest, -, rfl⟩ := hs₀ <;> exact coreInv_congr hs rfl rfl rfl rfl rfl rfl
  · exact coreInv_tick (coreInv_congr hs rfl rfl rfl rfl rfl rfl)
  · exact coreInv_takeReset image _

end Sys2Proof.Machine
end

section
/-! The bounds of pc and of the live return addresses (O51), along the layers of a step (40_cycle_fsm.md R119). -/

namespace Sys2Proof.Machine

open Sys2Proof.Claims

/-- The bounds are about pc, the stack and its depth only. -/
theorem pcInv_congr {s t : State} (hs : PcInv s) (hpc : t.pc = s.pc) (hstack : t.stack = s.stack) (hsp : t.sp = s.sp) : PcInv t := by
  obtain ⟨hbound, hlive⟩ := hs
  exact ⟨by rwa [hpc], by simpa only [hstack, hsp] using hlive⟩

theorem zextAddr_le (nnn : Addr12) : (zextAddr nnn).toNat ≤ 0xFFF := by
  have := nnn.isLt
  rw [toNat_zextAddr]
  omega

/-- JP V0,nnn reaches at most 0xFFF + 0xFF (R139). -/
theorem jpV0_target_le (nnn : Addr12) (b : Byte) : (zextAddr nnn + zextByte b).toNat ≤ 0x10FE := by
  have := nnn.isLt
  have := b.isLt
  rw [BitVec.toNat_add, toNat_zextAddr, toNat_zextByte]
  omega

theorem skipIf_pc_le {s : State} (c : Bool) (hpc : s.pc.toNat ≤ 0xFFE) : (skipIf c s).pc.toNat ≤ 0x10FE := by
  rw [skipIf_pc]
  split <;> bv_omega

theorem keyRead_pc_le {s : State} (x : Nibble) (hpc : s.pc.toNat ≤ 0xFFE) : (keyRead x s).pc.toNat ≤ 0x10FE := by
  unfold keyRead
  split
  · simp only [next_pc, endWait_pc, setV_pc]
    bv_omega
  · simp only [startWait_pc]
    omega

/-- The bound of pc after an instruction that completes: it was fetched at 0xFFE or below (R105), jumps to a 12-bit address, or returns. -/
theorem completion_pc_le {i : Instr} {s : State} (hs : PcInv s) (hpc : s.pc.toNat ≤ 0xFFE) (hf : faultOf i s = none) :
    (completion i s).pc.toNat ≤ 0x10FE := by
  have hnext : (s.pc + 2).toNat ≤ 0x10FE := by bv_omega
  cases i
  case jp nnn => exact (zextAddr_le nnn).trans (by decide)
  case call nnn => exact (zextAddr_le nnn).trans (by decide)
  case jpV0 nnn => exact jpV0_target_le nnn _
  case ret z =>
    have hpos := pos_of_faultOf_ret hf
    have hlt : s.sp.val - 1 < 16 := by omega
    have hentry : (completion (.ret z) s).pc = s.stack[s.sp.val - 1] := dif_pos hlt
    rw [hentry]
    exact (hs.stack _ hlt (by omega)).trans (by decide)
  case seImm x kk => exact skipIf_pc_le _ hpc
  case sneImm x kk => exact skipIf_pc_le _ hpc
  case seReg x y n => exact skipIf_pc_le _ hpc
  case sneReg x y n => exact skipIf_pc_le _ hpc
  case skp x => exact skipIf_pc_le _ hpc
  case sknp x => exact skipIf_pc_le _ hpc
  case ldVxK x => exact keyRead_pc_le x hpc
  all_goals exact hnext

/-- A return address in bounds keeps the live entries in bounds when pushed. -/
theorem pushed_stack_le {v : Word} {s : State} (hs : PcInv s) (hsp : s.sp.val < 16) (hv : v.toNat ≤ 0x1000) (k : Nat) (hk : k < 16)
    (hlt : k < (pushed v s).sp.val) : (pushed v s).stack[k].toNat ≤ 0x1000 := by
  rw [pushed_sp_val hsp] at hlt
  simp only [pushed, Vector.getElem_setIfInBounds hk]
  split
  · exact hv
  · exact hs.stack k hk (by omega)

theorem pcInv_completion {i : Instr} {s : State} (hs : PcInv s) (hpc : s.pc.toNat ≤ 0xFFE) (hf : faultOf i s = none) :
    PcInv (completion i s) := by
  refine ⟨completion_pc_le hs hpc hf, ?_⟩
  by_cases hcall : ∃ nnn, i = .call nnn
  · obtain ⟨nnn, rfl⟩ := hcall
    exact pushed_stack_le hs (lt_16_of_faultOf_call hf) (by simp only [adv]; bv_omega)
  · intro k hk hlt
    have hexec := exec_of_faultOf_eq_none hf
    simp only [(exec_stack hexec).resolve_right hcall]
    exact hs.stack k hk (hlt.trans_le (exec_sp_le (not_exists.mp hcall) hexec))

theorem pcInv_fetchExecute {s t : State} (hs : PcInv s) (h : fetchExecute s = .next t) : PcInv t := by
  obtain ⟨a, -, rfl⟩ | ⟨w, hf, -, rfl⟩ | ⟨w, i, u, hf, -, hexec, rfl⟩ := fetchExecute_cases h
  · exact pcInv_congr hs rfl rfl rfl
  · obtain ⟨hpc, -⟩ := fetch_eq_word.mp hf
    refine pcInv_congr (s := takeDecodeFailure w s) ⟨?_, ?_⟩ rfl rfl rfl
    · rw [takeDecodeFailure_pc]
      split <;> bv_omega
    · simpa only [takeDecodeFailure_stack, takeDecodeFailure_sp] using hs.stack
  · obtain ⟨hpc, -⟩ := fetch_eq_word.mp hf
    obtain ⟨c, a, -, rfl⟩ | ⟨hnone, rfl⟩ := exec_cases hexec
    · exact pcInv_congr hs rfl rfl rfl
    · exact pcInv_congr (pcInv_completion hs hpc hnone) rfl rfl rfl

theorem pcInv_cycle {s t : State} {k : Word} {r : Byte} {stop : Bool} (hs : PcInv s) (h : cycle k r stop s = .next t) : PcInv t := by
  obtain ⟨-, rfl⟩ | ⟨-, -, rfl⟩ | ⟨-, -, hrun⟩ := cycle_cases h
  · exact pcInv_congr hs rfl rfl rfl
  · exact pcInv_congr hs rfl rfl rfl
  · exact pcInv_fetchExecute (s := sampleInputs k r (clearStrobes s)) (pcInv_congr hs rfl rfl rfl) hrun

/-- Settles O51, over the events a step can take. -/
theorem stepKeepsPcBounds : Obligations.StepKeepsPcBounds := by
  intro s t hs h
  obtain ⟨k, r, stop, s₀, hs₀, hcycle⟩ | ⟨rest, -, rfl⟩ | ⟨image, rest, -, rfl⟩ := step_cases h
  · refine pcInv_cycle ?_ hcycle
    obtain rfl | ⟨rest, -, rfl⟩ := hs₀ <;> exact pcInv_congr hs rfl rfl rfl
  · exact pcInv_congr hs (tick_pc _) (tick_stack _) (tick_sp _)
  · exact pcInv_congr (pcInv_bootState s.params image) rfl rfl rfl

end Sys2Proof.Machine
end

section
/-! Who writes memory (20_memory.md R51), and what a later fetch finds in the bytes of a register dump (R55, R61). -/

namespace Sys2Proof.Machine

open Sys2Proof.Claims

@[simp] theorem keyRead_mem (x : Nibble) (s : State) : (keyRead x s).mem = s.mem := by unfold keyRead; split <;> rfl

/-- The writers of memory: no fault writes a byte, and no completion but those of the two stores. -/
theorem exec_mem_eq_or_store {i : Instr} {s t : State} (h : exec i s = .next t) : t.mem = s.mem ∨ ∃ x, i = .ldB x ∨ i = .ldIVx x := by
  refine exec_field (fun _ _ _ => rfl) ?_ h
  cases i
  case ldB x => exact .inr ⟨x, .inl rfl⟩
  case ldIVx x => exact .inr ⟨x, .inr rfl⟩
  case ldVxK x => exact .inl (keyRead_mem x s)
  all_goals exact .inl rfl

/-- Settles O38: a byte that reads otherwise stands in another memory. -/
theorem onlyBcdAndDumpWriteMemory : Obligations.OnlyBcdAndDumpWriteMemory := fun _ _ _ a h hne =>
  (exec_mem_eq_or_store h).resolve_left fun hmem => hne (congrArg (readByte · a) hmem)

/-- A register dump whose range check passes stores V0..V[x] from I on (R184). -/
theorem exec_ldIVx_mem {x : Nibble} {s t : State} (hrange : s.I.toNat + x.toNat ≤ 0xFFF) (h : exec (.ldIVx x) s = .next t) :
    t.mem = writeBytes s.mem s.I.toNat (dumpRegs s.V x) := by
  have hfault : faultOf (.ldIVx x) s = none := if_neg (by omega)
  rw [exec_of_faultOf_eq_none hfault] at h
  cases h
  rfl

/-- The byte at I + r after a dump is V[r]. -/
theorem readByte_of_dump {x r : Nibble} {s t : State} (hrange : s.I.toNat + x.toNat ≤ 0xFFF) (h : exec (.ldIVx x) s = .next t)
    (hr : r.toNat ≤ x.toNat) : readByte t.mem (s.I.toNat + r.toNat) = readV s r := by
  have hlen : r.toNat < (dumpRegs s.V x).length := by rw [length_dumpRegs]; omega
  rw [exec_ldIVx_mem hrange h, readByte_writeBytes_inside _ _ _ _ hlen, getElem_dumpRegs]

/-- Settles O37: pc and pc+1 are the addresses the dump gave to V[r] and V[r+1]. -/
theorem dumpedBytesAreFetched : Obligations.DumpedBytesAreFetched := by
  intro x s t u r r' h hrange hmem hsucc hr' hpc
  have hpcNext : u.pc.toNat + 1 = s.I.toNat + r'.toNat := by omega
  have hfirst : readByte t.mem u.pc.toNat = readV s r := hpc ▸ readByte_of_dump hrange h (by omega)
  have hsecond : readByte t.mem (u.pc.toNat + 1) = readV s r' := hpcNext ▸ readByte_of_dump hrange h hr'
  exact fetch_eq_word.mpr ⟨by omega, by rw [hmem, hfirst, hsecond, wordOfBytes]⟩

end Sys2Proof.Machine
end

section
/-! The decoder against the encoder and the opcode map (30_encoding.md R71 to R82): secondary dispatch as equations on built words (O1, O5), the
two round trips (O2, O3), and the words that fail by their fields (O6), from which the rows of R74 select the others (O4). -/

namespace Sys2Proof

open Sys2Proof.Claims

/-! ### Secondary dispatch on built words (R75 to R79) -/

theorem decode_family0 (z : Nibble) (kk : Byte) : decode (ofXkk 0x0 z kk) =
    if kk = 0xE0 then .instr (.cls z) else if kk = 0xEE then .instr (.ret z) else .failure (ofXkk 0x0 z kk) := by
  simp [decode, decodeFamily0]

theorem decode_familyE (x : Nibble) (kk : Byte) : decode (ofXkk 0xE x kk) =
    if kk = 0x9E then .instr (.skp x) else if kk = 0xA1 then .instr (.sknp x) else .failure (ofXkk 0xE x kk) := by
  simp [decode, decodeFamilyE]

theorem decode_familyF (x : Nibble) (kk : Byte) : decode (ofXkk 0xF x kk) =
    if kk = 0x07 then .instr (.ldVxDt x) else if kk = 0x0A then .instr (.ldVxK x) else if kk = 0x15 then .instr (.ldDtVx x)
    else if kk = 0x18 then .instr (.ldStVx x) else if kk = 0x1E then .instr (.addI x) else if kk = 0x29 then .instr (.ldF x)
    else if kk = 0x33 then .instr (.ldB x) else if kk = 0x55 then .instr (.ldIVx x) else if kk = 0x65 then .instr (.ldVxI x)
    else .failure (ofXkk 0xF x kk) := by
  have hdispatch : decode (ofXkk 0xF x kk) = decodeFamilyF (ofXkk 0xF x kk) := by simp [decode]
  simp only [hdispatch, decodeFamilyF, kkField_ofXkk, xField_ofXkk]
  split <;> simp_all

theorem decode_family8 (x y n : Nibble) : decode (ofNibbles 0x8 x y n) =
    if n = 0x0 then .instr (.ldReg x y) else if n = 0x1 then .instr (.orReg x y) else if n = 0x2 then .instr (.andReg x y)
    else if n = 0x3 then .instr (.xorReg x y) else if n = 0x4 then .instr (.addReg x y) else if n = 0x5 then .instr (.sub x y)
    else if n = 0x6 then .instr (.shr x y) else if n = 0x7 then .instr (.subn x y) else if n = 0xE then .instr (.shl x y)
    else .failure (ofNibbles 0x8 x y n) := by
  have hdispatch : decode (ofNibbles 0x8 x y n) = decodeFamily8 (ofNibbles 0x8 x y n) := by simp [decode]
  simp only [hdispatch, decodeFamily8, nField_ofNibbles, xField_ofNibbles, yField_ofNibbles]
  split <;> simp_all

/-- Settles O1: each word is a closed instance of the decoder. -/
theorem specExampleWordsDecode : Obligations.SpecExampleWordsDecode := by
  unfold Obligations.SpecExampleWordsDecode
  decide

/-- Settles O5: the words of the statement are built words; in family 0x8 no failing value of `n` meets a test of the chain. -/
theorem secondaryDispatchOfFamilies : Obligations.SecondaryDispatchOfFamilies := by
  refine ⟨decode_family0, fun x y => ?_, fun x y n => ?_, decode_familyE, decode_familyF⟩
  · refine ⟨decode_family8 x y _, decode_family8 x y _, decode_family8 x y _, decode_family8 x y _, decode_family8 x y _,
      decode_family8 x y _, decode_family8 x y _, decode_family8 x y _, decode_family8 x y _, fun n hn => ?_⟩
    refine (decode_family8 x y n).trans ?_
    fin_cases hn <;> rfl
  · have h5 : decode (ofNibbles 0x5 x y n) = .instr (.seReg x y n) := by simp [decode]
    have h9 : decode (ofNibbles 0x9 x y n) = .instr (.sneReg x y n) := by simp [decode]
    exact ⟨h5, h9⟩

/-! ### Round trips (R80) -/

/-- The families with a secondary dispatch go through its chain; in the others the top nibble selects the instruction. -/
theorem decode_encode (i : Instr) : decode (encode i) = .instr i := by
  cases i
  case cls z | ret z => exact decode_family0 z _
  case skp x | sknp x => exact decode_familyE x _
  case ldVxDt x | ldVxK x | ldDtVx x | ldStVx x | addI x | ldF x | ldB x | ldIVx x | ldVxI x => exact decode_familyF x _
  case ldReg x y | orReg x y | andReg x y | xorReg x y | addReg x y | sub x y | shr x y | subn x y | shl x y =>
    exact decode_family8 x y _
  all_goals simp [encode, decode]

theorem decodeBytes_bytesOfWord {w : Word} {i : Instr} (h : decode w = .instr i) (rest : List Byte) :
    decodeBytes (bytesOfWord w ++ rest) = .instr i rest := by
  simp [bytesOfWord, decodeBytes, wordOfBytes_bytes, h]

/-- Settles O2: the bytes of a word are read back as that word. -/
theorem decodeOfEncodeIsTheInstruction : Obligations.DecodeOfEncodeIsTheInstruction := fun i =>
  ⟨decode_encode i, decodeBytes_bytesOfWord (decode_encode i)⟩

theorem ofXkk_eq_of_fields {w : Word} {a : Nibble} {kk : Byte} (hop : opField w = a) (hkk : kkField w = kk) :
    ofXkk a (xField w) kk = w := by
  rw [← hop, ← hkk, ofXkk_fields]

theorem ofNibbles_eq_of_fields {w : Word} {a n : Nibble} (hop : opField w = a) (hn : nField w = n) :
    ofNibbles a (xField w) (yField w) n = w := by
  rw [← hop, ← hn, ofNibbles_fields]

theorem ofNnn_eq_of_fields {w : Word} {a : Nibble} (hop : opField w = a) : ofNnn a (nnnField w) = w := by
  rw [← hop, ofNnn_fields]

theorem encode_of_decodeFamily0 {w : Word} {i : Instr} (hop : opField w = 0x0) (h : decodeFamily0 w = .instr i) : encode i = w := by
  unfold decodeFamily0 at h
  split_ifs at h with hkk hkk <;> (cases h; exact ofXkk_eq_of_fields hop hkk)

theorem encode_of_decodeFamilyE {w : Word} {i : Instr} (hop : opField w = 0xE) (h : decodeFamilyE w = .instr i) : encode i = w := by
  unfold decodeFamilyE at h
  split_ifs at h with hkk hkk <;> (cases h; exact ofXkk_eq_of_fields hop hkk)

theorem encode_of_decodeFamilyF {w : Word} {i : Instr} (hop : opField w = 0xF) (h : decodeFamilyF w = .instr i) : encode i = w := by
  unfold decodeFamilyF at h
  split at h <;> cases h
  all_goals next hkk => exact ofXkk_eq_of_fields hop hkk

theorem encode_of_decodeFamily8 {w : Word} {i : Instr} (hop : opField w = 0x8) (h : decodeFamily8 w = .instr i) : encode i = w := by
  unfold decodeFamily8 at h
  split at h <;> cases h
  all_goals next hn => exact ofNibbles_eq_of_fields hop hn

/-- What the last case of `decode` stands for. -/
theorem eq_F_of_notMem : ∀ a : Nibble, a ∉ [0x0#4, 0x1, 0x2, 0x3, 0x4, 0x5, 0x6, 0x7, 0x8, 0x9, 0xA, 0xB, 0xC, 0xD, 0xE] → a = 0xF := by
  decide

/-- The cases are the branches of the primary dispatch (R73), the k-th for the top nibble k - 1. -/
theorem encode_of_decode {w : Word} {i : Instr} (h : decode w = .instr i) : encode i = w := by
  unfold decode at h
  split at h
  case h_1 hop => exact encode_of_decodeFamily0 hop h
  case h_9 hop => exact encode_of_decodeFamily8 hop h
  case h_15 hop => exact encode_of_decodeFamilyE hop h
  case h_16 => exact encode_of_decodeFamilyF (eq_F_of_notMem _ (by simp_all)) h
  case h_2 hop | h_3 hop | h_11 hop | h_12 hop => cases h; exact ofNnn_eq_of_fields hop
  case h_6 hop | h_10 hop | h_14 hop => cases h; exact ofNibbles_eq_of_fields hop rfl
  case h_4 hop | h_5 hop | h_7 hop | h_8 hop | h_13 hop => cases h; exact ofXkk_eq_of_fields hop rfl

/-- Settles O3, over the branches of the dispatch, each of which keeps every field of the word. -/
theorem decodedWordIsItsEncoding : Obligations.DecodedWordIsItsEncoding := fun _ _ => encode_of_decode

/-! ### The words that fail, by their fields (R81) -/

/-- The low bytes of family 0x0 that decode (R75). -/
def family0Codes : List Byte := [0xE0, 0xEE]
/-- The low nibbles of family 0x8 that decode (R76). -/
def family8Codes : List Nibble := [0x0, 0x1, 0x2, 0x3, 0x4, 0x5, 0x6, 0x7, 0xE]
/-- The low bytes of family 0xE that decode (R78). -/
def familyECodes : List Byte := [0x9E, 0xA1]
/-- The low bytes of family 0xF that decode (R79). -/
def familyFCodes : List Byte := [0x07, 0x0A, 0x15, 0x18, 0x1E, 0x29, 0x33, 0x55, 0x65]

theorem decodeFamily0_eq_failure {w : Word} : decodeFamily0 w = .failure w ↔ kkField w ∉ family0Codes := by
  unfold decodeFamily0 family0Codes; split_ifs <;> simp_all

theorem decodeFamilyE_eq_failure {w : Word} : decodeFamilyE w = .failure w ↔ kkField w ∉ familyECodes := by
  unfold decodeFamilyE familyECodes; split_ifs <;> simp_all

theorem decodeFamilyF_eq_failure {w : Word} : decodeFamilyF w = .failure w ↔ kkField w ∉ familyFCodes := by
  unfold decodeFamilyF familyFCodes; split <;> simp_all

theorem decodeFamily8_eq_failure {w : Word} : decodeFamily8 w = .failure w ↔ nField w ∉ family8Codes := by
  unfold decodeFamily8 family8Codes; split <;> simp_all

theorem fails_iff {w : Word} : Fails w ↔
    opField w = 0x0 ∧ kkField w ∉ family0Codes ∨ opField w = 0x8 ∧ nField w ∉ family8Codes ∨
    opField w = 0xE ∧ kkField w ∉ familyECodes ∨ opField w = 0xF ∧ kkField w ∉ familyFCodes := by
  unfold Fails decode
  split
  case h_1 hop => simp [hop, decodeFamily0_eq_failure]
  case h_9 hop => simp [hop, decodeFamily8_eq_failure]
  case h_15 hop => simp [hop, decodeFamilyE_eq_failure]
  case h_16 =>
    have hop : opField w = 0xF := eq_F_of_notMem _ (by simp_all)
    simp [hop, decodeFamilyF_eq_failure]
  all_goals next hop => simp [hop]

theorem decodes_iff_not_fails {w : Word} : (∃ i, decode w = .instr i) ↔ ¬ Fails w := by
  unfold Fails
  cases h : decode w with
  | instr i => simp
  | failure w' => simp [decode_failure_word h]

/-- The values of a width outside a list without repetitions fill a list of the size that is left. -/
theorem exists_list_of_iff_notMem {n : Nat} {codes : List (BitVec n)} {P : BitVec n → Prop} (hcodes : codes.Nodup)
    (hP : ∀ a, P a ↔ a ∉ codes) : ∃ l : List (BitVec n), l.Nodup ∧ l.length = 2 ^ n - codes.length ∧ ∀ a, a ∈ l ↔ P a := by
  have hcard : Fintype.card (BitVec n) = 2 ^ n := FinEnum.card_eq_fintypeCard.symm.trans (FinEnum.card_bitVec n)
  refine ⟨codes.toFinsetᶜ.toList, Finset.nodup_toList _, ?_, fun a => by simp [hP]⟩
  rw [Finset.length_toList, Finset.card_compl, List.toFinset_card_of_nodup hcodes, hcard]

theorem fails_family0 (x : Nibble) (kk : Byte) : Fails (ofXkk 0x0 x kk) ↔ kk ∉ family0Codes := by simp [fails_iff]
theorem fails_familyE (x : Nibble) (kk : Byte) : Fails (ofXkk 0xE x kk) ↔ kk ∉ familyECodes := by simp [fails_iff]
theorem fails_familyF (x : Nibble) (kk : Byte) : Fails (ofXkk 0xF x kk) ↔ kk ∉ familyFCodes := by simp [fails_iff]
theorem fails_family8 (x y n : Nibble) : Fails (ofNibbles 0x8 x y n) ↔ n ∉ family8Codes := by simp [fails_iff]

/-- Settles O6: in each family with a secondary dispatch, what fails is what is no code of the family. -/
theorem decodeFailuresCountedByFamily : Obligations.DecodeFailuresCountedByFamily := by
  refine ⟨fun x => ⟨?_, ?_, ?_⟩, fun x y => ?_, fun w hop hfails => ?_, rfl⟩
  · exact exists_list_of_iff_notMem (by decide) (fails_family0 x)
  · exact exists_list_of_iff_notMem (by decide) (fails_familyE x)
  · exact exists_list_of_iff_notMem (by decide) (fails_familyF x)
  · exact exists_list_of_iff_notMem (by decide) (fails_family8 x y)
  · obtain ⟨h, -⟩ | ⟨h, -⟩ | ⟨h, -⟩ | ⟨h, -⟩ := fails_iff.mp hfails <;> simp [h] at hop

/-! ### The rows of the opcode map (R74, R82) -/

theorem row_mem_opcodeRows (i : Instr) : i.row ∈ opcodeRows := by
  cases i <;> simp [opcodeRows, Instr.row]

/-- Every instruction stands in its own row, by the lemma `Laws.OpcodeRow` has for it. -/
theorem encode_and_mask (i : Instr) : encode i &&& i.row.mask = i.row.value := by
  cases i
  exacts [
    Laws.OpcodeRow.cls _, Laws.OpcodeRow.ret _, Laws.OpcodeRow.jp _, Laws.OpcodeRow.call _, Laws.OpcodeRow.seImm _ _,
    Laws.OpcodeRow.sneImm _ _, Laws.OpcodeRow.seReg _ _ _, Laws.OpcodeRow.ldX _ _, Laws.OpcodeRow.addImm _ _,
    Laws.OpcodeRow.ldReg _ _, Laws.OpcodeRow.orReg _ _, Laws.OpcodeRow.andReg _ _, Laws.OpcodeRow.xorReg _ _,
    Laws.OpcodeRow.addReg _ _, Laws.OpcodeRow.sub _ _, Laws.OpcodeRow.shr _ _, Laws.OpcodeRow.subn _ _, Laws.OpcodeRow.shl _ _,
    Laws.OpcodeRow.sneReg _ _ _, Laws.OpcodeRow.ldI _, Laws.OpcodeRow.jpV0 _, Laws.OpcodeRow.rnd _ _, Laws.OpcodeRow.drw _ _ _,
    Laws.OpcodeRow.skp _, Laws.OpcodeRow.sknp _, Laws.OpcodeRow.ldVxDt _, Laws.OpcodeRow.ldVxK _, Laws.OpcodeRow.ldDtVx _,
    Laws.OpcodeRow.ldStVx _, Laws.OpcodeRow.addI _, Laws.OpcodeRow.ldF _, Laws.OpcodeRow.ldB _, Laws.OpcodeRow.ldIVx _,
    Laws.OpcodeRow.ldVxI _]

theorem opField_and (w m : Word) : opField (w &&& m) = opField w &&& opField m := BitVec.extractLsb'_and
theorem nField_and (w m : Word) : nField (w &&& m) = nField w &&& nField m := BitVec.extractLsb'_and
theorem kkField_and (w m : Word) : kkField (w &&& m) = kkField w &&& kkField m := BitVec.extractLsb'_and

/-- A row fixes the top nibble and, in a family with a secondary dispatch, the field that dispatch is on, at a code of the family. -/
theorem opcodeRows_fix_codes : ∀ r ∈ opcodeRows, opField r.mask = 0xF ∧
    (opField r.value = 0x0 → kkField r.mask = 0xFF ∧ kkField r.value ∈ family0Codes) ∧
    (opField r.value = 0x8 → nField r.mask = 0xF ∧ nField r.value ∈ family8Codes) ∧
    (opField r.value = 0xE → kkField r.mask = 0xFF ∧ kkField r.value ∈ familyECodes) ∧
    (opField r.value = 0xF → kkField r.mask = 0xFF ∧ kkField r.value ∈ familyFCodes) := by
  decide

theorem not_fails_of_selected {w : Word} {r : OpcodeRow} (hr : r ∈ opcodeRows) (hsel : w &&& r.mask = r.value) : ¬ Fails w := by
  obtain ⟨hmask, h0, h8, hE, hF⟩ := opcodeRows_fix_codes r hr
  have hop : opField r.value = opField w := by rw [← hsel, opField_and, hmask, and_allOnes4]
  have hn (h : nField r.mask = 0xF) : nField r.value = nField w := by rw [← hsel, nField_and, h, and_allOnes4]
  have hkk (h : kkField r.mask = 0xFF) : kkField r.value = kkField w := by rw [← hsel, kkField_and, h, and_allOnes8]
  rw [fails_iff, ← hop]
  rintro (⟨hfam, hno⟩ | ⟨hfam, hno⟩ | ⟨hfam, hno⟩ | ⟨hfam, hno⟩)
  · obtain ⟨hfix, hcode⟩ := h0 hfam
    exact hno (hkk hfix ▸ hcode)
  · obtain ⟨hfix, hcode⟩ := h8 hfam
    exact hno (hn hfix ▸ hcode)
  · obtain ⟨hfix, hcode⟩ := hE hfam
    exact hno (hkk hfix ▸ hcode)
  · obtain ⟨hfix, hcode⟩ := hF hfam
    exact hno (hkk hfix ▸ hcode)

/-- A decoded word is the word of its instruction, and so in that instruction's row. -/
theorem selected_of_decode {w : Word} {i : Instr} (h : decode w = .instr i) : w &&& i.row.mask = i.row.value := by
  rw [← encode_of_decode h, encode_and_mask]

theorem opcodeRows_eq_of_agree :
    ∀ r ∈ opcodeRows, ∀ r' ∈ opcodeRows, r.value &&& r'.mask = r'.value &&& r.mask → r = r' := by
  decide

/-- Settles O4: two rows that select one word agree on the bits both masks keep, which no two different rows of the table do. -/
theorem opcodeRowsSelectTheDecodedWords : Obligations.OpcodeRowsSelectTheDecodedWords := by
  refine ⟨rfl, fun w => ⟨?_, ?_⟩, fun _ _ => selected_of_decode, fun w r hr r' hr' h h' => ?_⟩
  · rintro ⟨i, hi⟩
    exact ⟨i.row, row_mem_opcodeRows i, selected_of_decode hi⟩
  · rintro ⟨r, hr, hsel⟩
    exact decodes_iff_not_fails.mpr (not_fails_of_selected hr hsel)
  · refine opcodeRows_eq_of_agree r hr r' hr' ?_
    rw [← h, ← h', BitVec.and_assoc, BitVec.and_assoc, BitVec.and_comm r.mask]

end Sys2Proof
end

section
/-! The events of a run (40_cycle_fsm.md R102 to R119): what a Step without stop runs (O7), when it is taken (O8), what its fetch finds (O9), when
`frame` is asserted (O12), and what a Tick does, alone (O13) and after its Step (O14). -/

namespace Sys2Proof.Machine

open Sys2Proof.Claims

section
variable {s t : State} {i : Instr} {k : Word} {r : Byte} {stop : Bool} {rest : List Event}

/-! ### The Step (R103 to R109) -/

theorem step_terminal (hp : s.pending = .step k r stop :: rest) (hterminal : ¬ Live s) :
    step s = .next { s with pending := rest, frame := false, decodeFail := false } := by
  rw [step_pending_cons hp]
  exact cycle_terminal k r stop (Bool.eq_false_iff.mpr (mt live_iff.mp hterminal))

theorem step_stop (hp : s.pending = .step k r true :: rest) (hlive : Live s) :
    step s = .next { s with pending := rest, frame := false, decodeFail := false, fsm := .stopped } := by
  rw [step_pending_cons hp]
  exact cycle_stop k r (live_iff.mpr hlive)

theorem step_runs (hp : s.pending = .step k r false :: rest) (hlive : Live s) : step s = fetchExecute (Sampled k r rest s) := by
  rw [step_pending_cons hp]
  exact cycle_runs k r (live_iff.mpr hlive)

/-- An unscheduled step runs on the model's own inputs (logs 2 and 3). -/
theorem step_runs_unscheduled (hp : s.pending = []) (hlive : Live s) :
    step s = fetchExecute (Sampled 0 (Config.freeRnd s.draws) [] { s with draws := s.draws + 1 }) := by
  rw [step_pending_nil hp, ← hp]
  exact cycle_runs 0 _ (live_iff.mpr hlive)

theorem fetch_of_pc_le (hpc : s.pc.toNat ≤ 0xFFE) : fetch s = .word (WordAtPc s) := fetch_eq_word.mpr ⟨hpc, rfl⟩

theorem fetches_of_decode (hpc : s.pc.toNat ≤ 0xFFE) (hd : decode (WordAtPc s) = .instr i) : Fetches s i :=
  ⟨_, fetch_of_pc_le hpc, hd⟩

theorem fetchExecute_of_fetches (hf : Fetches s i) (hexec : exec i s = .next t) : fetchExecute s = .next (endStep t) := by
  obtain ⟨w, hw, hd⟩ := hf
  simp only [fetchExecute, hw, hd, hexec, finish]

theorem step_of_decode (hp : s.pending = .step k r false :: rest) (hlive : Live s) (hpc : s.pc.toNat ≤ 0xFFE)
    (hd : decode (WordAtPc s) = .instr i) (hexec : exec i (Sampled k r rest s) = .next t) : step s = .next (endStep t) := by
  rw [step_runs hp hlive]
  exact fetchExecute_of_fetches (fetches_of_decode hpc hd) hexec

/-- The lowest address out of range of pc, pc+1 is pc itself or 0x1000 (R105). -/
theorem step_fetch_outOfRange (hp : s.pending = .step k r false :: rest) (hlive : Live s) (hpc : 0xFFE < s.pc.toNat) :
    step s = .next (Faulted .fetchOob (max s.pc.toNat 0x1000) 0 (Sampled k r rest s)) := by
  have hf : fetch (Sampled k r rest s) = .outOfRange (max s.pc.toNat 0x1000) := fetch_eq_outOfRange.mpr ⟨hpc, rfl⟩
  rw [step_runs hp hlive, fetchExecute, hf]
  rfl

/-! ### What a Step leaves: its strobe (R111) and the events after it -/

theorem fetchExecute_frame (h : fetchExecute s = .next t) : t.frame = t.fsm.live := by
  obtain ⟨a, -, rfl⟩ | ⟨w, -, -, rfl⟩ | ⟨w, i, u, -, -, -, rfl⟩ := fetchExecute_cases h <;> exact endStep_frame _

theorem cycle_frame (h : cycle k r stop s = .next t) : t.frame = t.fsm.live := by
  obtain ⟨hdead, rfl⟩ | ⟨-, -, rfl⟩ | ⟨-, -, hrun⟩ := cycle_cases h
  · rw [clearStrobes_frame, clearStrobes_fsm, hdead]
  · rfl
  · exact fetchExecute_frame hrun

theorem step_frame (hstep : StepComes s) (h : step s = .next t) : t.frame = t.fsm.live := by
  obtain hp | ⟨k, r, stop, rest, hp⟩ := hstep
  · rw [step_pending_nil hp] at h
    exact cycle_frame h
  · rw [step_pending_cons hp] at h
    exact cycle_frame h

theorem fetchExecute_pending (h : fetchExecute s = .next t) : t.pending = s.pending := by
  obtain ⟨a, -, rfl⟩ | ⟨w, -, -, rfl⟩ | ⟨w, i, u, -, -, hexec, rfl⟩ := fetchExecute_cases h
  · rfl
  · exact takeDecodeFailure_pending w s
  · obtain ⟨-, -, -, -, -, -, hpending, -⟩ := exec_keeps_surroundings hexec
    exact hpending

theorem step_pending (hp : s.pending = .step k r stop :: rest) (h : step s = .next t) : t.pending = rest := by
  rw [step_pending_cons hp] at h
  obtain ⟨-, rfl⟩ | ⟨-, -, rfl⟩ | ⟨-, -, hrun⟩ := cycle_cases h
  · rfl
  · rfl
  · exact fetchExecute_pending hrun

/-! ### The Tick (R115, R116) -/

theorem step_tick (hp : s.pending = .tick :: rest) : step s = .next (tick (clearStrobes (setPending rest s))) :=
  step_pending_cons hp

theorem tick_eq_update (s : State) : tick s = { s with DT := (tick s).DT, ST := (tick s).ST } := by
  unfold tick
  split <;> rfl

/-- In a live state a tick takes one from each timer, and a timer at 0 stays there, as Nat subtraction has it. -/
theorem tick_timers_of_live (hlive : Live s) : (tick s).DT.toNat = s.DT.toNat - 1 ∧ (tick s).ST.toNat = s.ST.toNat - 1 := by
  rw [tick_DT, tick_ST, live_iff.mpr hlive]
  exact ⟨toNat_decrement _, toNat_decrement _⟩

theorem tick_of_terminal (hterminal : ¬ Live s) : tick s = s := if_neg (mt live_iff.mp hterminal)

/-- A Tick event changes the timers only, and those only in a live state. -/
theorem step_tick_spec (hp : s.pending = .tick :: rest) : ∃ t, step s = .next t ∧
    t = { s with DT := t.DT, ST := t.ST, pending := rest, frame := false, decodeFail := false } ∧
    (Live s → t.DT.toNat = s.DT.toNat - 1 ∧ t.ST.toNat = s.ST.toNat - 1) ∧ (¬ Live s → t.DT = s.DT ∧ t.ST = s.ST) := by
  refine ⟨_, step_tick hp, tick_eq_update _, fun hlive => ?_, fun hterminal => ?_⟩
  · exact tick_timers_of_live (s := clearStrobes (setPending rest s)) hlive
  · rw [tick_of_terminal (s := clearStrobes (setPending rest s)) hterminal]
    exact ⟨rfl, rfl⟩

/-- A Step that completes an instruction with `t`, still live, and the Tick presented with it: the tick decrements the timers of `t`. -/
theorem step_then_tick (hp : s.pending = .step k r false :: .tick :: rest) (hlive : Live s) (hpc : s.pc.toNat ≤ 0xFFE)
    (hd : decode (WordAtPc s) = .instr i) (hexec : exec i (Sampled k r (.tick :: rest) s) = .next t) (ht : Live t) :
    ∃ u, step s = .next (endStep t) ∧ step (endStep t) = .next u ∧ u.V = t.V ∧ u.DT.toNat = t.DT.toNat - 1 ∧
      u.ST.toNat = t.ST.toNat - 1 := by
  have hstep := step_of_decode hp hlive hpc hd hexec
  obtain ⟨u, htick, hu, hdec, -⟩ := step_tick_spec (step_pending hp hstep)
  have hV : u.V = t.V := by rw [hu]; rfl
  exact ⟨u, hstep, htick, hV, hdec ht⟩

end

/-! ### The obligations -/

/-- Settles O7, for the sampled inputs of a scheduled and of an unscheduled Step. -/
theorem stepRunsTheDecodedInstruction : Obligations.StepRunsTheDecodedInstruction := by
  refine ⟨fun s k r rest i t hp hlive hpc hd hexec => step_of_decode hp hlive hpc hd hexec, fun s i t hp hlive hpc hd hexec => ?_⟩
  rw [step_runs_unscheduled hp hlive]
  exact fetchExecute_of_fetches (fetches_of_decode hpc hd) hexec

/-- Settles O8: both are ends of a Step before it samples its inputs. -/
theorem stepTakenOnlyWhenLiveAndStopEndsIt : Obligations.StepTakenOnlyWhenLiveAndStopEndsIt :=
  ⟨fun _ _ _ _ _ hp hterminal => step_terminal hp hterminal, fun _ _ _ _ hp hlive => step_stop hp hlive⟩

/-- Settles O9: at pc = 0xFFF the first address out of range is that of the second byte, above it that of the first. -/
theorem fetchReadsTheWordOrFaults : Obligations.FetchReadsTheWordOrFaults := by
  refine ⟨fun s hpc => fetch_of_pc_le hpc, fun s k r rest hp hlive hpc => ?_, fun s k r rest hp hlive hpc => ?_⟩
  · rw [step_fetch_outOfRange hp hlive (by omega), hpc, Nat.max_eq_right (by decide)]
  · rw [step_fetch_outOfRange hp hlive (by omega), Nat.max_eq_left hpc]

/-- Settles O12: a Tick clears the strobes and asserts none. -/
theorem frameStrobeOfLiveSteps : Obligations.FrameStrobeOfLiveSteps := by
  refine ⟨fun s t h hstep => by rw [step_frame hstep h, live_iff], fun s t rest h hp => ?_⟩
  rw [step_tick hp] at h
  cases h
  exact tick_frame _

/-- Settles O13: memory is among the fields a tick leaves as they are. -/
theorem tickDecrementsNonzeroTimers : Obligations.TickDecrementsNonzeroTimers := by
  intro s rest hp
  obtain ⟨t, hstep, ht, htimers⟩ := step_tick_spec hp
  have hmem : t.mem = s.mem := by rw [ht]
  exact ⟨t, hstep, ht, fun a => by rw [hmem], htimers⟩

/-- Settles O14: the three timer moves keep the core live, and any Step leaves the Tick as the next event. -/
theorem tickComesAfterItsStep : Obligations.TickComesAfterItsStep := by
  refine ⟨fun s k r rest x hp hlive hpc hd => ?_, fun s k r rest x hp hlive hpc hd => ?_, fun s k r rest x hp hlive hpc hd => ?_,
    fun s k r stop rest hp => ?_⟩
  · obtain ⟨u, hstep, htick, hV, hDT, -⟩ := step_then_tick hp hlive hpc hd rfl hlive
    refine ⟨_, u, hstep, htick, ?_, hDT⟩
    rw [readV, hV]
    exact readV_setV_self x _ _
  · obtain ⟨u, hstep, htick, -, hDT, -⟩ := step_then_tick hp hlive hpc hd rfl hlive
    exact ⟨_, u, hstep, htick, rfl, hDT⟩
  · obtain ⟨u, hstep, htick, -, -, hST⟩ := step_then_tick hp hlive hpc hd rfl hlive
    exact ⟨_, u, hstep, htick, rfl, hST⟩
  · obtain ⟨t, hstep⟩ := step_next s
    obtain ⟨u, htick, hspec⟩ := step_tick_spec (step_pending hp hstep)
    exact ⟨t, u, hstep, htick, hspec⟩

end Sys2Proof.Machine
end

section
/-! The next pc of an instruction that completes (40_cycle_fsm.md R110, O25), and the wait for a key (R112, R113, 45_keys_timers_random.md R230,
R231, O48). -/

namespace Sys2Proof.Machine

open Sys2Proof.Claims

/-! ### The two ends of LD Vx,K (R230) -/

theorem keyRead_of_no_key (x : Nibble) {s : State} (h : s.keys = 0) : keyRead x s = startWait x s := by
  simp only [keyRead, lowestKey_eq_none.mpr h]

theorem keyRead_of_lowest (x : Nibble) {s : State} {k : Nat} (h : lowestKey s.keys = some k) :
    keyRead x s = next (endWait (setV x (BitVec.ofNat 8 k) s)) := by
  simp only [keyRead, h]

theorem exists_lowestKey {keys : Word} (h : keys ≠ 0) : ∃ k, lowestKey keys = some k :=
  Option.ne_none_iff_exists'.mp (mt lowestKey_eq_none.mp h)

/-- The number of the lowest pressed key fits in Vx. -/
theorem toNat_readV_keyRead (x : Nibble) {s : State} {k : Nat} (h : lowestKey s.keys = some k) : (readV (keyRead x s) x).toNat = k := by
  obtain ⟨hlt, -, -⟩ := lowestKey_eq_some.mp h
  rw [keyRead_of_lowest x h, readV_next, readV_endWait, readV_setV_self, BitVec.toNat_ofNat]
  omega

/-! ### The next pc (R110) -/

theorem jpV0_target (nnn : Addr12) (b : Byte) : zextAddr nnn + zextByte b = BitVec.ofNat 16 (nnn.toNat + b.toNat) := by
  rw [BitVec.ofNat_add, BitVec.ofNat_toNat, BitVec.ofNat_toNat, zextAddr, zextByte]

theorem skipIf_not_pc (c : Bool) (s : State) : (skipIf (!c) s).pc = if c then s.pc + 2 else s.pc + 4 := by
  cases c <;> rfl

theorem keyRead_pc (x : Nibble) (s : State) : (keyRead x s).pc = if s.keys = 0 then s.pc else s.pc + 2 := by
  split
  · next hkeys => rw [keyRead_of_no_key x hkeys, startWait_pc]
  · next hkeys =>
    obtain ⟨k, hk⟩ := exists_lowestKey hkeys
    rw [keyRead_of_lowest x hk, next_pc, endWait_pc, setV_pc]

theorem completion_pc (i : Instr) (s : State) : (completion i s).pc = nextPcOf i s := by
  cases i
  case jp nnn => exact (BitVec.ofNat_toNat 16 nnn).symm
  case call nnn => exact (BitVec.ofNat_toNat 16 nnn).symm
  case jpV0 nnn => exact jpV0_target nnn _
  case seImm x kk => simp only [completion, skipIf_pc, nextPcOf, decide_eq_true_eq]
  case seReg x y n => simp only [completion, skipIf_pc, nextPcOf, decide_eq_true_eq]
  case sneImm x kk => simp only [completion, skipIf_not_pc, nextPcOf, decide_not, decide_eq_true_eq, ne_eq]
  case sneReg x y n => simp only [completion, skipIf_not_pc, nextPcOf, decide_not, decide_eq_true_eq, ne_eq]
  case sknp x => exact skipIf_not_pc _ s
  case ldVxK x => exact keyRead_pc x s
  all_goals rfl

/-- Settles O25: where the fault condition does not hold, `exec` completes. -/
theorem nextPcFollowsTheTable : Obligations.NextPcFollowsTheTable := by
  intro i s t h hf
  rw [exec_of_faultOf_eq_none hf] at h
  cases h
  exact completion_pc i s

/-! ### The wait for a key (R112, R113, R231) -/

/-- While `s` waits, a step on any inputs runs the LD Vx,K of `wait_reg`: they are no part of what the fetch reads. -/
theorem fetchExecute_waiting {s u : State} (hs : CoreInv s) (hwait : s.fsm = .waitingForKey) (hpc : u.pc = s.pc) (hmem : u.mem = s.mem) :
    fetchExecute u = .next (endStep (keyRead s.waitReg u)) := by
  obtain ⟨-, w, hw, hd⟩ := hs.wait.1 hwait
  have hf : Fetches u (.ldVxK s.waitReg) := ⟨w, (fetch_congr hpc hmem).trans hw, hd⟩
  exact fetchExecute_of_fetches hf (exec_of_faultOf_eq_none rfl)

theorem step_waiting {s : State} {k : Word} {r : Byte} {rest : List Event} (hs : CoreInv s) (hwait : s.fsm = .waitingForKey)
    (hp : s.pending = .step k r false :: rest) : step s = .next (endStep (keyRead s.waitReg (Sampled k r rest s))) := by
  rw [step_runs hp (.inr hwait)]
  exact fetchExecute_waiting hs hwait rfl rfl

theorem step_waiting_unscheduled {s : State} (hs : CoreInv s) (hwait : s.fsm = .waitingForKey) (hp : s.pending = []) :
    step s = .next (endStep (keyRead s.waitReg (Sampled 0 (Config.freeRnd s.draws) [] { s with draws := s.draws + 1 }))) := by
  rw [step_runs_unscheduled hp (.inr hwait)]
  exact fetchExecute_waiting hs hwait rfl rfl

theorem bootState_waitKey (p : Params) (image : List Byte) : (bootState p image).waitKey = false := by
  unfold bootState
  split <;> rfl

theorem not_waiting_of_waitKey {s : State} (hs : CoreInv s) (hkey : s.waitKey = false) : s.fsm ≠ .waitingForKey := fun hwait => by
  obtain ⟨hset, -⟩ := hs.wait.1 hwait
  rw [hkey] at hset
  cases hset

/-- Settles O48, over the events that can come while the core waits; an unscheduled step presses no key. -/
theorem waitEndsOnlyByKeyStopOrReset : Obligations.WaitEndsOnlyByKeyStopOrReset := by
  refine ⟨fun s k r stop rest t hs hwait hp h => ?_, fun s t hs hwait hp h => ?_,
    fun s rest t hs hwait hp h => ?_, fun s image rest t hs hwait hp h => ?_⟩
  · cases stop with
    | true =>
      rw [step_stop hp (.inr hwait)] at h
      cases h
      exact .inl ⟨rfl, rfl, rfl⟩
    | false =>
      rw [step_waiting hs hwait hp] at h
      cases h
      by_cases hkeys : k = 0
      · rw [keyRead_of_no_key _ hkeys]
        exact .inr (.inl ⟨rfl, hkeys, rfl, rfl⟩)
      · obtain ⟨j, hj⟩ := exists_lowestKey hkeys
        obtain ⟨-, hpressed, hlower⟩ := lowestKey_eq_some.mp hj
        rw [readV_endStep, toNat_readV_keyRead s.waitReg (s := Sampled k r rest s) hj, keyRead_of_lowest _ hj]
        exact .inr (.inr ⟨rfl, hkeys, rfl, rfl, hpressed, hlower⟩)
  · rw [step_waiting_unscheduled hs hwait hp, keyRead_of_no_key _ rfl] at h
    cases h
    exact ⟨rfl, rfl⟩
  · rw [step_tick hp] at h
    cases h
    rw [tick_fsm, tick_pc]
    exact ⟨hwait, rfl⟩
  · rw [step_pending_cons hp] at h
    cases h
    have hkey : (takeReset image (setPending rest s)).waitKey = false := bootState_waitKey _ image
    exact ⟨not_waiting_of_waitKey (coreInv_takeReset image _) hkey, hkey⟩

end Sys2Proof.Machine
end

section
/-! Control flow (41_control_flow.md): the jumps and the skips write pc only (O20, O21), and CALL and RET are a push and a pop with a jump (O22 to
O24). -/

namespace Sys2Proof.Machine

open Sys2Proof.Claims

/-! ### Jumps and skips (R133, R135 to R139) -/

theorem onlyPc_setPc (target : Word) (s : State) : OnlyPc s (setPc target s) := ⟨rfl, fun _ => rfl⟩

/-- Settles O20: the target of JP V0,nnn is at most 0x10FE, so the sum does not wrap. -/
theorem jumpsSetPcToTheTarget : Obligations.JumpsSetPcToTheTarget := by
  refine ⟨fun nnn s => ⟨_, rfl, toNat_zextAddr nnn, onlyPc_setPc _ s⟩, fun nnn s => ⟨_, rfl, ?_, onlyPc_setPc _ s⟩⟩
  have := nnn.isLt
  have := (readV s 0).isLt
  rw [setPc_pc, jpV0_target, BitVec.toNat_ofNat]
  omega

/-- A skip on the condition `c`, with `d` for its failure (R110). -/
theorem skipIf_spec {c d : Prop} [Decidable c] (hd : d ↔ ¬ c) (s : State) :
    OnlyPc s (skipIf (decide c) s) ∧ (c → (skipIf (decide c) s).pc = s.pc + 4) ∧ (d → (skipIf (decide c) s).pc = s.pc + 2) := by
  rw [skipIf_pc]
  exact ⟨onlyPc_setPc _ s, fun hc => if_pos (decide_eq_true hc), fun h => if_neg (mt of_decide_eq_true (hd.mp h))⟩

/-- Settles O21: SE skips on an equality, SNE on its failure. -/
theorem skipsFollowTheirCondition : Obligations.SkipsFollowTheirCondition :=
  ⟨fun _ _ s => ⟨_, rfl, skipIf_spec .rfl s⟩, fun _ _ s => ⟨_, rfl, skipIf_spec not_not.symm s⟩,
    fun _ _ _ s => ⟨_, rfl, skipIf_spec .rfl s⟩, fun _ _ _ s => ⟨_, rfl, skipIf_spec not_not.symm s⟩⟩

/-! ### CALL and RET (R130 to R132, R134) -/

section
variable {s : State} {v : Word}

theorem pushed_stack_top (h : s.sp.val < 16) : (pushed v s).stack[s.sp.val] = v :=
  Vector.getElem_setIfInBounds_self h

theorem pushed_stack_ne {k : Nat} (hk : k < 16) (hne : k ≠ s.sp.val) : (pushed v s).stack[k] = s.stack[k] :=
  Vector.getElem_setIfInBounds_ne hk hne.symm

/-- A pop undoes a push but for the entry, which stays (R26). -/
theorem popped_pushed (h : s.sp.val < 16) : popped (pushed v s) = { s with stack := (pushed v s).stack } := by
  have hsp : (popped (pushed v s)).sp = s.sp := Fin.ext (by rw [popped_sp_val, pushed_sp_val h, Nat.add_sub_cancel])
  calc popped (pushed v s)
    _ = { s with stack := (pushed v s).stack, sp := (popped (pushed v s)).sp } := rfl
    _ = { s with stack := (pushed v s).stack } := by rw [hsp]

theorem nextPcOf_ret (z : Nibble) (h : s.sp.val - 1 < 16) : nextPcOf (.ret z) s = s.stack[s.sp.val - 1] := dif_pos h

/-- RET reads the entry pushed last. -/
theorem nextPcOf_ret_pushed (z : Nibble) (h : s.sp.val < 16) : nextPcOf (.ret z) (pushed v s) = v := by
  have hsp : (pushed v s).sp.val - 1 = s.sp.val := by rw [pushed_sp_val h, Nat.add_sub_cancel]
  calc nextPcOf (.ret z) (pushed v s)
    _ = (pushed v s).stack[(pushed v s).sp.val - 1] := nextPcOf_ret z (by omega)
    _ = (pushed v s).stack[s.sp.val] := by simp only [hsp]
    _ = v := pushed_stack_top h

theorem exec_call (nnn : Addr12) (h : s.sp.val < 16) : exec (.call nnn) s = .next (setPc (zextAddr nnn) (pushed (s.pc + 2) s)) :=
  exec_of_faultOf_eq_none (if_neg h.ne)

theorem exec_ret (z : Nibble) (h : 0 < s.sp.val) : exec (.ret z) s = .next (setPc (nextPcOf (.ret z) s) (popped s)) :=
  exec_of_faultOf_eq_none (if_neg h.ne')

/-- After a push and a jump, RET goes to the address pushed, at the depth before the push. -/
theorem exec_ret_pushed (z : Nibble) (target : Word) (h : s.sp.val < 16) :
    exec (.ret z) (setPc target (pushed v s)) = .next (setPc v { s with stack := (pushed v s).stack }) := by
  have hpos : 0 < (setPc target (pushed v s)).sp.val := by rw [setPc_sp, pushed_sp_val h]; exact Nat.succ_pos _
  have hpc : nextPcOf (.ret z) (setPc target (pushed v s)) = v := nextPcOf_ret_pushed z h
  rw [exec_ret z hpos, hpc, ← popped_pushed h]
  rfl

end

/-- Settles O22: a push and a jump below depth 16, and at depth 16 the fault of R241. -/
theorem callPushesTheReturnAddress : Obligations.CallPushesTheReturnAddress := by
  refine ⟨fun nnn s h => ⟨_, exec_call nnn h, toNat_zextAddr nnn, ?sp, ?top, ?others, rfl, fun _ => rfl⟩,
    fun nnn s h => exec_of_faultOf_eq_some (if_pos (congrArg Fin.val h))⟩
  case sp => exact pushed_sp_val (v := s.pc + 2) h
  case top => exact pushed_stack_top h
  case others => exact fun _ hk hne => pushed_stack_ne hk hne

/-- Settles O23: a pop and a jump above depth 0, and at depth 0 the fault of R241. -/
theorem retPopsTheReturnAddress : Obligations.RetPopsTheReturnAddress :=
  ⟨fun z s h => ⟨_, exec_ret z h, nextPcOf_ret z (by omega), popped_sp_val s, rfl, fun _ => rfl⟩,
    fun _ _ h => exec_of_faultOf_eq_some (if_pos (congrArg Fin.val h))⟩

/-- Settles O24: the RET pops the entry the CALL pushed, and the CALL writes no entry below it. -/
theorem retAfterCallResumesAfterTheCall : Obligations.RetAfterCallResumesAfterTheCall := by
  intro nnn z s t u hsp hcall hret
  rw [exec_call nnn hsp] at hcall
  cases hcall
  rw [exec_ret_pushed z _ hsp] at hret
  cases hret
  exact ⟨rfl, fun k hk hlt => pushed_stack_ne hk hlt.ne⟩

end Sys2Proof.Machine
end

section
/-! Register arithmetic (42_alu.md): a write of Vx alone (O26, O27), the two orders of result and flag (R150; O28 to O30), and what result and
flag say together (R162; O31). -/

namespace Sys2Proof.Machine

open Sys2Proof.Claims

/-! ### The frames -/

theorem onlyRegsNext_setRegs (v : Vector Byte 16) (s : State) : OnlyRegsNext s (next (setRegs v s)) := ⟨rfl, fun _ => rfl⟩

/-- A write of Vx and no flag. -/
theorem next_setV_spec (x : Nibble) (result : Byte) (s : State) :
    readV (next (setV x result s)) x = result ∧ SameRegsBut [x] s (next (setV x result s)) ∧
      OnlyRegsNext s (next (setV x result s)) :=
  ⟨readV_setV_self x result s, fun _ hr => readV_setV_ne (List.ne_of_not_mem_cons hr) result s, onlyRegsNext_setRegs _ s⟩

/-- Two writes, of Vx and VF in either order, leave the other registers. -/
theorem sameRegsBut_setV_setV {x a b : Nibble} (ha : a ∈ [x, 0xF]) (hb : b ∈ [x, 0xF]) (v w : Byte) (s : State) :
    SameRegsBut [x, 0xF] s (next (setV a v (setV b w s))) := fun r hr => by
  have hra : r ≠ a := fun h => hr (h ▸ ha)
  have hrb : r ≠ b := fun h => hr (h ▸ hb)
  rw [readV_next, readV_setV_ne hra, readV_setV_ne hrb]

theorem sameRegsBut_writeResultThenFlag (x : Nibble) (result flag : Byte) (s : State) :
    SameRegsBut [x, 0xF] s (next (writeResultThenFlag x result flag s)) :=
  sameRegsBut_setV_setV (by simp) (by simp) flag result s

theorem sameRegsBut_writeFlagThenResult (x : Nibble) (flag result : Byte) (s : State) :
    SameRegsBut [x, 0xF] s (next (writeFlagThenResult x flag result s)) :=
  sameRegsBut_setV_setV (by simp) (by simp) result flag s

/-! ### What Vx and VF read after the two writes (R150) -/

@[simp] theorem readV_writeResultThenFlag_flag (x : Nibble) (result flag : Byte) (s : State) :
    readV (writeResultThenFlag x result flag s) 0xF = flag := readV_setV_self _ _ _

theorem readV_writeResultThenFlag_result {x : Nibble} {result flag : Byte} {s : State} (hx : x ≠ 0xF) :
    readV (writeResultThenFlag x result flag s) x = result :=
  (readV_setV_ne hx flag _).trans (readV_setV_self x result s)

@[simp] theorem readV_writeFlagThenResult_result (x : Nibble) (flag result : Byte) (s : State) :
    readV (writeFlagThenResult x flag result s) x = result := readV_setV_self _ _ _

theorem readV_writeFlagThenResult_flag {x : Nibble} {flag result : Byte} {s : State} (hx : x ≠ 0xF) :
    readV (writeFlagThenResult x flag result s) 0xF = flag :=
  (readV_setV_ne hx.symm result _).trans (readV_setV_self _ flag s)

/-! ### The flags and the wrapped results as numbers -/

@[simp] theorem toNat_flagByte (b : Bool) : (flagByte b).toNat = b.toNat := by cases b <;> rfl

theorem flagByte_of {c : Prop} [Decidable c] (h : c) : flagByte (decide c) = 1 := if_pos (decide_eq_true h)
theorem flagByte_of_not {c : Prop} [Decidable c] (h : ¬ c) : flagByte (decide c) = 0 := if_neg (mt of_decide_eq_true h)

section
variable (a b : Byte)

theorem toNat_carryFlag : (carryFlag a b).toNat = (a.toNat + b.toNat) / 256 := by
  have := a.isLt
  have := b.isLt
  rw [carryFlag, toNat_flagByte, Bool.toNat, Bool.cond_decide]
  split <;> omega

theorem toNat_noBorrowFlag : (noBorrowFlag a b).toNat = (a.toNat + 256 - b.toNat) / 256 := by
  have := a.isLt
  have := b.isLt
  rw [noBorrowFlag, toNat_flagByte, Bool.toNat, Bool.cond_decide]
  split <;> omega

theorem toNat_shrFlag : (shrFlag a).toNat = a.toNat % 2 := by
  rw [shrFlag, toNat_flagByte, BitVec.getLsbD, Nat.toNat_testBit, Nat.pow_zero, Nat.div_one]

theorem toNat_shlFlag : (shlFlag a).toNat = a.toNat / 128 := by
  have := a.isLt
  rw [shlFlag, toNat_flagByte, BitVec.getLsbD, Nat.toNat_testBit]
  omega

theorem toNat_shiftRight_one : (a >>> 1).toNat = a.toNat / 2 := by
  rw [BitVec.toNat_ushiftRight, Nat.shiftRight_one]

theorem toNat_shiftLeft_one : (a <<< 1).toNat = a.toNat * 2 % 256 := by
  rw [BitVec.toNat_shiftLeft, Nat.shiftLeft_eq, Nat.pow_one]

theorem toNat_sub_wrapped : (a - b).toNat = (a.toNat + 256 - b.toNat) % 256 := by
  have := b.isLt
  rw [BitVec.toNat_sub]
  omega

/-! ### Result and flag together (R162) -/

theorem carryFlag_add_exact : (carryFlag a b).toNat * 256 + (a + b).toNat = a.toNat + b.toNat := by
  rw [toNat_carryFlag, BitVec.toNat_add, Nat.div_add_mod']

theorem noBorrowFlag_sub_exact : (a - b).toNat + b.toNat + 256 * (noBorrowFlag a b).toNat = 256 + a.toNat := by
  have := b.isLt
  rw [toNat_noBorrowFlag, toNat_sub_wrapped]
  omega

theorem shrFlag_shift_exact : 2 * (a >>> 1).toNat + (shrFlag a).toNat = a.toNat := by
  rw [toNat_shiftRight_one, toNat_shrFlag, Nat.div_add_mod]

theorem shlFlag_shift_exact : (a <<< 1).toNat + 256 * (shlFlag a).toNat = 2 * a.toNat := by
  rw [toNat_shiftLeft_one, toNat_shlFlag]
  omega

end

/-- Settles O31: x is not F, so both bytes an instruction writes are still there to be read. -/
theorem arithmeticLawsOfResultAndFlag : Obligations.ArithmeticLawsOfResultAndFlag := by
  intro x y s hx
  refine ⟨fun t h => ?add, fun t h => ?sub, fun t h => ?subn, fun t h => ?shr, fun t h => ?shl⟩ <;> cases h
  case' add | sub | subn => rw [readV_next, readV_next, readV_writeResultThenFlag_flag, readV_writeResultThenFlag_result hx]
  case' shr | shl => rw [readV_next, readV_next, readV_writeFlagThenResult_result, readV_writeFlagThenResult_flag hx]
  case add => exact carryFlag_add_exact _ _
  case sub => exact noBorrowFlag_sub_exact _ _
  case subn => exact noBorrowFlag_sub_exact _ _
  case shr => exact shrFlag_shift_exact _
  case shl => exact shlFlag_shift_exact _

/-! ### Writes of Vx alone (R151 to R156) -/

/-- Settles O26: each writes its result to Vx and nothing else. -/
theorem loadsAndImmediateAddWriteVxOnly : Obligations.LoadsAndImmediateAddWriteVxOnly := by
  refine ⟨fun x kk s => ⟨_, rfl, next_setV_spec x kk s⟩, fun x kk s => ?add, fun x y s => ⟨_, rfl, next_setV_spec x _ s⟩⟩
  obtain ⟨hresult, hframe⟩ := next_setV_spec x (readV s x + kk) s
  exact ⟨_, rfl, (congrArg BitVec.toNat hresult).trans (BitVec.toNat_add _ _), hframe⟩

/-- A write of Vx alone whose bits are known one by one. -/
theorem next_setV_bits {x : Nibble} {result : Byte} {s : State} {bit : Nat → Bool} (hbit : ∀ b, result.getLsbD b = bit b) :
    SameRegsBut [x] s (next (setV x result s)) ∧ OnlyRegsNext s (next (setV x result s)) ∧
      ∀ b, (readV (next (setV x result s)) x).getLsbD b = bit b := by
  obtain ⟨hresult, hregs, hframe⟩ := next_setV_spec x result s
  exact ⟨hregs, hframe, fun b => hresult.symm ▸ hbit b⟩

/-- Settles O27: the three results bit by bit. -/
theorem logicWritesVxOnly : Obligations.LogicWritesVxOnly :=
  ⟨fun _ _ _ => ⟨_, rfl, next_setV_bits fun _ => BitVec.getLsbD_or⟩,
    fun _ _ _ => ⟨_, rfl, next_setV_bits fun _ => BitVec.getLsbD_and⟩,
    fun _ _ _ => ⟨_, rfl, next_setV_bits fun _ => BitVec.getLsbD_xor⟩⟩

/-! ### Result and flag (R157 to R161) -/

/-- Settles O28: the flag, written last, is VF for every x. -/
theorem addWritesSumAndCarry : Obligations.AddWritesSumAndCarry := fun x y s => by
  refine ⟨_, rfl, sameRegsBut_writeResultThenFlag x _ _ s, onlyRegsNext_setRegs _ s, fun hx => ?sum, fun h => ?carry, fun h => ?noCarry⟩
  case sum => rw [readV_next, readV_writeResultThenFlag_result hx, BitVec.toNat_add]
  case carry => exact (readV_writeResultThenFlag_flag ..).trans (flagByte_of h)
  case noCarry => exact (readV_writeResultThenFlag_flag ..).trans (flagByte_of_not h.not_gt)

/-- The subtraction `a - b` of SUB and SUBN. -/
theorem subtraction_spec (x : Nibble) (a b : Byte) (s : State) :
    let t := next (writeResultThenFlag x (a - b) (noBorrowFlag a b) s)
    SameRegsBut [x, 0xF] s t ∧ OnlyRegsNext s t ∧ (x ≠ 0xF → (readV t x).toNat = (a.toNat + 256 - b.toNat) % 256) ∧
      (b.toNat ≤ a.toNat → readV t 0xF = 1) ∧ (a.toNat < b.toNat → readV t 0xF = 0) := by
  refine ⟨sameRegsBut_writeResultThenFlag x _ _ s, onlyRegsNext_setRegs _ s, fun hx => ?difference, fun h => ?noBorrow, fun h => ?borrow⟩
  case difference => rw [readV_next, readV_writeResultThenFlag_result hx, toNat_sub_wrapped]
  case noBorrow => exact (readV_writeResultThenFlag_flag ..).trans (flagByte_of h)
  case borrow => exact (readV_writeResultThenFlag_flag ..).trans (flagByte_of_not h.not_ge)

/-- Settles O29: SUBN is SUB with its operands exchanged. -/
theorem subtractionsWriteDifferenceAndNotBorrow : Obligations.SubtractionsWriteDifferenceAndNotBorrow :=
  ⟨fun x y s => ⟨_, rfl, subtraction_spec x (readV s x) (readV s y) s⟩,
    fun x y s => ⟨_, rfl, subtraction_spec x (readV s y) (readV s x) s⟩⟩

/-- A shift with the result `m` and the outgoing bit `n`. -/
theorem shift_spec {x : Nibble} {flag result : Byte} {s : State} {m n : Nat} (hresult : result.toNat = m) (hflag : flag.toNat = n) :
    let t := next (writeFlagThenResult x flag result s)
    SameRegsBut [x, 0xF] s t ∧ OnlyRegsNext s t ∧ (readV t x).toNat = m ∧ (x ≠ 0xF → (readV t 0xF).toNat = n) := by
  refine ⟨sameRegsBut_writeFlagThenResult x _ _ s, onlyRegsNext_setRegs _ s, ?result, fun hx => ?flag⟩
  case result => rw [readV_next, readV_writeFlagThenResult_result, hresult]
  case flag => rw [readV_next, readV_writeFlagThenResult_flag hx, hflag]

/-- Settles O30: the result, written last, is Vx for every x. -/
theorem shiftsWriteOutgoingBitThenResult : Obligations.ShiftsWriteOutgoingBitThenResult :=
  ⟨fun _ _ _ => ⟨_, rfl, shift_spec (toNat_shiftRight_one _) (toNat_shrFlag _)⟩,
    fun _ _ _ => ⟨_, rfl, shift_spec (toNat_shiftLeft_one _) (toNat_shlFlag _)⟩⟩

end Sys2Proof.Machine
end

section
/-! Index register and memory (43_index_memory.md): writes of I alone (O32), the two stores (O33, O34), the register load (O35), and the load
after a dump (O36). -/

namespace Sys2Proof.Machine

open Sys2Proof.Claims

/-! ### The frames -/

theorem onlyIndexNext_setI (v : Word) (s : State) : OnlyIndexNext s (next (setI v s)) := ⟨rfl, fun _ => rfl⟩

/-- A store at I changes the bytes it writes. -/
theorem onlyBytesAtINext_store (bs : List Byte) (s : State) :
    OnlyBytesAtINext bs.length s (next (setMem (writeBytes s.mem (addrI s) bs) s)) :=
  ⟨rfl, fun a ha => readByte_writeBytes_outside bs s.mem s.I.toNat a ha⟩

/-! ### Instructions that complete -/

section
variable {x : Nibble} {s : State}

theorem exec_ldB (x : Nibble) (hrange : s.I.toNat + 2 ≤ 0xFFF) :
    exec (.ldB x) s = .next (next (setMem (writeBytes s.mem (addrI s) (bcdDigits (readV s x))) s)) :=
  exec_of_faultOf_eq_none (if_neg hrange.not_gt)

theorem exec_ldIVx (hrange : s.I.toNat + x.toNat ≤ 0xFFF) :
    exec (.ldIVx x) s = .next (next (setMem (writeBytes s.mem (addrI s) (dumpRegs s.V x)) s)) :=
  exec_of_faultOf_eq_none (if_neg hrange.not_gt)

theorem exec_ldVxI (hrange : s.I.toNat + x.toNat ≤ 0xFFF) :
    exec (.ldVxI x) s = .next (next (setRegs (loadRegs s.V 0 (readBytes s.mem (addrI s) (x.toNat + 1))) s)) :=
  exec_of_faultOf_eq_none (if_neg hrange.not_gt)

/-- V[r] after a load, for the registers the load writes. -/
theorem readV_of_load {t : State} {r : Nibble} (hrange : s.I.toNat + x.toNat ≤ 0xFFF) (h : exec (.ldVxI x) s = .next t)
    (hr : r.toNat ≤ x.toNat) : readV t r = readByte s.mem (s.I.toNat + r.toNat) := by
  have hlen : r.toNat < (readBytes s.mem (addrI s) (x.toNat + 1)).length := by rw [length_readBytes]; omega
  rw [exec_ldVxI hrange] at h
  cases h
  rw [readV_next, readV_setRegs_loadRegs, dif_pos hlen, getElem_readBytes, addrI]

/-- V[r] after a load, for the registers above V[x]. -/
theorem readV_of_load_above {t : State} {r : Nibble} (hrange : s.I.toNat + x.toNat ≤ 0xFFF) (h : exec (.ldVxI x) s = .next t)
    (hr : x.toNat < r.toNat) : readV t r = readV s r := by
  have hlen : ¬ r.toNat < (readBytes s.mem (addrI s) (x.toNat + 1)).length := by rw [length_readBytes]; omega
  rw [exec_ldVxI hrange] at h
  cases h
  rw [readV_next, readV_setRegs_loadRegs, dif_neg hlen]

end

/-- Settles O36: the load reads each byte where the dump put it. -/
theorem loadAfterDumpRestoresRegisters : Obligations.LoadAfterDumpRestoresRegisters := by
  intro x s t u v hrange hdump hmem hI hload r hr
  calc readV v r
    _ = readByte u.mem (u.I.toNat + r.toNat) := readV_of_load (hI ▸ hrange) hload hr
    _ = readByte t.mem (s.I.toNat + r.toNat) := by rw [hmem, hI]
    _ = readV s r := readByte_of_dump hrange hdump hr

/-! ### Writes of I (R180 to R182) -/

/-- The address of a glyph fits in I: 255 * 5 is below 65536. -/
theorem toNat_glyphAddr (b : Byte) : (glyphAddr b).toNat = b.toNat * 5 := by
  have := b.isLt
  exact Nat.mod_eq_of_lt (by omega)

/-- Settles O32: the sum wraps at 16 bits, the glyph address does not reach them. -/
theorem indexInstructionsWriteIOnly : Obligations.IndexInstructionsWriteIOnly := by
  refine ⟨fun nnn s => ⟨_, rfl, toNat_zextAddr nnn, onlyIndexNext_setI _ s⟩, fun x s => ⟨_, rfl, ?sum, onlyIndexNext_setI _ s⟩,
    fun x s => ⟨_, rfl, toNat_glyphAddr _, onlyIndexNext_setI _ s⟩⟩
  rw [next_I, setI_I, BitVec.toNat_add, toNat_zextByte]

/-! ### Stores and the load (R183 to R185) -/

/-- A number that is at most the value of a byte, as its decimal digits are, fits in a byte. -/
theorem toNat_ofNat_of_le {b : Byte} {n : Nat} (h : n ≤ b.toNat) : (BitVec.ofNat 8 n).toNat = n :=
  Nat.mod_eq_of_lt (h.trans_lt b.isLt)

/-- Settles O33: the three bytes of the store are the digits, in this order. -/
theorem bcdStoresThreeDigits : Obligations.BcdStoresThreeDigits := by
  refine ⟨fun x s hrange => ?_, fun _ _ h => exec_of_faultOf_eq_some (if_pos h)⟩
  have hstored : ∀ k (hk : k < 3), (readByte (writeBytes s.mem s.I.toNat (bcdDigits (readV s x))) (s.I.toNat + k)).toNat =
      (bcdDigits (readV s x))[k].toNat := fun _ hk =>
    congrArg BitVec.toNat (readByte_writeBytes_inside _ _ _ _ hk)
  refine ⟨_, exec_ldB x hrange, onlyBytesAtINext_store _ s, ?hundreds, ?tens, ?ones⟩
  case hundreds => exact (hstored 0 (by decide)).trans (toNat_ofNat_of_le (Nat.div_le_self _ _))
  case tens => exact (hstored 1 (by decide)).trans (toNat_ofNat_of_le ((Nat.mod_le _ _).trans (Nat.div_le_self _ _)))
  case ones => exact (hstored 2 (by decide)).trans (toNat_ofNat_of_le (Nat.mod_le _ _))

/-- Settles O34: the dump is a store of the x + 1 bytes V0 to V[x]. -/
theorem registerDumpStoresV0ToVx : Obligations.RegisterDumpStoresV0ToVx := by
  refine ⟨fun x s hrange => ?_, fun _ _ h => exec_of_faultOf_eq_some (if_pos h)⟩
  have hdump := exec_ldIVx hrange
  exact ⟨_, hdump, length_dumpRegs s.V x ▸ onlyBytesAtINext_store _ s, fun _ => readByte_of_dump hrange hdump⟩

/-- Settles O35: a register at or below V[x] takes its byte, and one above keeps its value. -/
theorem registerLoadReadsV0ToVx : Obligations.RegisterLoadReadsV0ToVx := by
  refine ⟨fun x s hrange => ?_, fun _ _ h => exec_of_faultOf_eq_some (if_pos h)⟩
  have hload := exec_ldVxI hrange
  exact ⟨_, hload, onlyRegsNext_setRegs _ s, fun _ => readV_of_load hrange hload, fun _ => readV_of_load_above hrange hload⟩

end Sys2Proof.Machine
end

section
/-! Display (44_display.md): CLS (O39), the draw pixel by pixel and its flag (O40), and what follows from them for the empty draw (O41) and for
the same draw twice (O42). -/

namespace Sys2Proof.Machine

open Sys2Proof.Claims

/-- Settles O39: what CLS puts in the place of the framebuffer has no pixel set. -/
theorem clsClearsEveryPixel : Obligations.ClsClearsEveryPixel := fun _ _ => ⟨_, rfl, pixel_clear, rfl, fun _ => rfl⟩

/-! ### The sprite -/

section
variable {x y n : Nibble} {s u : State}

/-- The loop's own account of the pixels a sprite hits. -/
theorem spriteHits_iff_spriteRows {px : Fin 64} {py : Fin 32} : SpriteHits x y n s px py ↔
    ∃ k, ∃ h : k < (spriteRows s n).length, ∃ c, c < 8 ∧ spriteBit (spriteRows s n)[k] c = true ∧
      wrapX (readV s x) c = px ∧ wrapY (readV s y) (0 + k) = py := by
  simp only [SpriteHits, spriteRows, spriteBit, length_readBytes, getElem_readBytes, addrI, wrapX, wrapY, Fin.ext_iff,
    Fin.val_ofNat, Nat.zero_add, exists_prop]

/-- Which pixels a sprite hits depends on V[x], V[y], I and the bytes of memory. -/
theorem spriteHits_congr (hI : u.I = s.I) (hx : readV u x = readV s x) (hy : readV u y = readV s y) (hbytes : SameBytes s u)
    (px : Fin 64) (py : Fin 32) : SpriteHits x y n u px py ↔ SpriteHits x y n s px py := by
  simp only [SpriteHits, hI, hx, hy, hbytes _]

theorem not_spriteHits_zero (px : Fin 64) (py : Fin 32) : ¬ SpriteHits x y 0 s px py :=
  fun ⟨r, hr, _⟩ => Nat.not_lt_zero r hr

/-- The draw of R202 is the XOR with the pixels the sprite hits, and its flag tells of one that was set. -/
theorem drawSprite_spec (x y n : Nibble) (s : State) :
    let d := drawSprite (readV s x) (readV s y) (spriteRows s n) s.fb
    (∀ px py, pixel d.fb px py = true ↔ ¬ (pixel s.fb px py = true ↔ SpriteHits x y n s px py)) ∧
      (d.collision = true ↔ ∃ px py, SpriteHits x y n s px py ∧ pixel s.fb px py = true) := by
  have hlen : (spriteRows s n).length ≤ 32 := by
    rw [spriteRows, length_readBytes]
    omega
  obtain ⟨hpixel, hcollision⟩ := drawRows_spec (readV s x) (readV s y) (spriteRows s n) 0 ⟨s.fb, false⟩ hlen
  refine ⟨fun px py => (hpixel px py).trans (by rw [spriteHits_iff_spriteRows]), hcollision.trans ?_⟩
  simp only [Bool.false_eq_true, false_or, spriteHits_iff_spriteRows]
  constructor
  · rintro ⟨k, hk, c, hc, hbit, hset⟩
    exact ⟨_, _, ⟨k, hk, c, hc, hbit, rfl, rfl⟩, hset⟩
  · rintro ⟨_, _, ⟨k, hk, c, hc, hbit, rfl, rfl⟩, hset⟩
    exact ⟨k, hk, c, hc, hbit, hset⟩

/-! ### A draw that completes -/

theorem exec_drw (hrange : n.toNat = 0 ∨ s.I.toNat + n.toNat - 1 ≤ 0xFFF) :
    exec (.drw x y n) s = .next (completion (.drw x y n) s) :=
  exec_of_faultOf_eq_none (if_neg (by omega))

theorem pixel_completion_drw (px : Fin 64) (py : Fin 32) :
    pixel (completion (.drw x y n) s).fb px py = true ↔ ¬ (pixel s.fb px py = true ↔ SpriteHits x y n s px py) :=
  (drawSprite_spec x y n s).1 px py

theorem flagByte_eq_one {b : Bool} : flagByte b = 1 ↔ b = true := by cases b <;> decide
theorem flagByte_eq_zero {b : Bool} : flagByte b = 0 ↔ ¬ b = true := by cases b <;> decide

theorem readV_completion_drw_vf :
    readV (completion (.drw x y n) s) 0xF =
      flagByte (drawSprite (readV s x) (readV s y) (spriteRows s n) s.fb).collision :=
  readV_setV_self _ _ s

theorem vf_completion_drw_eq_one :
    readV (completion (.drw x y n) s) 0xF = 1 ↔ ∃ px py, SpriteHits x y n s px py ∧ pixel s.fb px py = true := by
  rw [readV_completion_drw_vf, flagByte_eq_one, (drawSprite_spec x y n s).2]

theorem vf_completion_drw_eq_zero :
    readV (completion (.drw x y n) s) 0xF = 0 ↔ ¬ ∃ px py, SpriteHits x y n s px py ∧ pixel s.fb px py = true := by
  rw [readV_completion_drw_vf, flagByte_eq_zero, (drawSprite_spec x y n s).2]

theorem sameRegsBut_completion_drw : SameRegsBut [0xF] s (completion (.drw x y n) s) :=
  fun _ hr => readV_setV_ne (List.ne_of_not_mem_cons hr) _ s

/-- The XOR law for one pixel (R206): what is toggled twice is as before. -/
theorem pixel_completion_drw_twice (hfb : u.fb = (completion (.drw x y n) s).fb)
    (hhits : ∀ px py, SpriteHits x y n u px py ↔ SpriteHits x y n s px py) (px : Fin 64) (py : Fin 32) :
    pixel (completion (.drw x y n) u).fb px py = pixel s.fb px py := by
  rw [Bool.eq_iff_iff, pixel_completion_drw, hfb, pixel_completion_drw, hhits]
  tauto

end

/-! ### The obligations -/

/-- Settles O40: in range by the lemmas about the completion, out of range by the fault table. -/
theorem drwTogglesHitPixelsAndFlagsCollision : Obligations.DrwTogglesHitPixelsAndFlagsCollision :=
  ⟨fun _ _ _ _ hrange => ⟨_, exec_drw hrange, pixel_completion_drw, vf_completion_drw_eq_one.mpr, vf_completion_drw_eq_zero.mpr,
      sameRegsBut_completion_drw, rfl, fun _ => rfl⟩,
    fun _ _ _ _ hn hout => exec_of_faultOf_eq_some (if_pos ⟨hn, hout⟩)⟩

/-- Settles O41: a sprite of no rows is drawn as nothing. -/
theorem emptyDrawOnlyClearsVf : Obligations.EmptyDrawOnlyClearsVf := fun x y s =>
  have hclear : readV (completion (.drw x y 0) s) 0xF = 0 :=
    vf_completion_drw_eq_zero.mpr fun ⟨px, py, hhit, _⟩ => not_spriteHits_zero px py hhit
  ⟨_, exec_drw (.inl rfl), hclear, rfl, sameRegsBut_completion_drw, rfl, fun _ => rfl⟩

/-- Settles O42: the second draw hits the same pixels, and of those it finds set the ones that were 0 before the first draw. -/
theorem drawingTwiceRestoresThePicture : Obligations.DrawingTwiceRestoresThePicture := by
  intro x y n s t u v hrange hfirst hfb hI hx hy hbytes hsecond
  have hhits := spriteHits_congr (n := n) hI hx hy hbytes
  rw [exec_drw hrange] at hfirst
  rw [exec_drw (hI ▸ hrange)] at hsecond
  cases hfirst
  cases hsecond
  refine ⟨framebuffer_ext (pixel_completion_drw_twice hfb hhits), vf_completion_drw_eq_one, vf_completion_drw_eq_one.trans ?second⟩
  case second =>
    refine exists_congr fun px => exists_congr fun py => ?_
    rw [hhits, hfb, pixel_completion_drw, ← Bool.not_eq_true]
    tauto

end Sys2Proof.Machine
end

section
/-! Random, keys and timers (45_keys_timers_random.md): what reads the random sample (O55, O43), the skips by a key (O44), the timer moves (O45),
and the two ends of LD Vx,K (O46), the second of which a waiting step takes again (O47). -/

namespace Sys2Proof.Machine

open Sys2Proof.Claims

/-! ### The wait goes on (R231) -/

/-- In a waiting state of the invariant the wait of `wait_reg` has begun already. -/
theorem startWait_of_waiting {s : State} (hs : CoreInv s) (hwait : s.fsm = .waitingForKey) : startWait s.waitReg s = s := by
  obtain ⟨hkey, -⟩ := hs.wait.1 hwait
  rw [startWait, ← hkey, ← hwait]

/-- Settles O47: with no key the step begins the wait of `wait_reg` again. -/
theorem waitingStepWithoutKeyChangesNothing : Obligations.WaitingStepWithoutKeyChangesNothing := by
  intro s r rest hs hwait hp
  calc step s
    _ = .next (endStep (startWait s.waitReg (Sampled 0 r rest s))) := by rw [step_waiting hs hwait hp, keyRead_of_no_key _ rfl]
    _ = .next { Sampled 0 r rest (startWait s.waitReg s) with frame := true } := rfl
    _ = .next { Sampled 0 r rest s with frame := true } := by rw [startWait_of_waiting hs hwait]

/-! ### The random sample (R220) -/

theorem keyRead_rndSUpdate (x : Nibble) (r : Byte) (s : State) : keyRead x { s with rndS := r } = { keyRead x s with rndS := r } := by
  cases hk : lowestKey s.keys <;> simp only [keyRead, hk] <;> rfl

/-- Settles O55: the random sample stands in no fault condition, and in no completion but that of RND. -/
theorem randomByteReachesOnlyRnd : Obligations.RandomByteReachesOnlyRnd := by
  intro i s r t hi h
  refine exec_commutes (f := fun s => { s with rndS := r }) (faultOf_congr i rfl rfl rfl) (fun _ _ _ => rfl) ?_ h
  cases i
  case rnd x kk => exact absurd rfl (hi x kk)
  case ldVxK x => exact keyRead_rndSUpdate x r s
  all_goals rfl

/-- Settles O43: RND is a write of Vx alone. -/
theorem rndMasksTheSampledByte : Obligations.RndMasksTheSampledByte :=
  fun _ _ _ => ⟨_, rfl, next_setV_bits fun _ => BitVec.getLsbD_and⟩

/-! ### The skips by a key (R221 to R223) -/

section
variable {x : Nibble} {s : State}

theorem exec_skp (hkey : (readV s x).toNat ≤ 0x0F) : exec (.skp x) s = .next (skipIf (s.keys.getLsbD (readV s x).toNat) s) :=
  exec_of_faultOf_eq_none (if_neg hkey.not_gt)

theorem exec_sknp (hkey : (readV s x).toNat ≤ 0x0F) : exec (.sknp x) s = .next (skipIf (!s.keys.getLsbD (readV s x).toNat) s) :=
  exec_of_faultOf_eq_none (if_neg hkey.not_gt)

end

/-- A skip on a key's bit, which is set for `c` and clear for `d`. -/
theorem skipIf_bit_spec {bit : Bool} {c d : Prop} (hc : c → bit = true) (hd : d → bit = false) (s : State) :
    OnlyPc s (skipIf bit s) ∧ (c → (skipIf bit s).pc = s.pc + 4) ∧ (d → (skipIf bit s).pc = s.pc + 2) := by
  rw [skipIf_pc]
  exact ⟨onlyPc_setPc _ s, fun h => if_pos (hc h), fun h => if_neg (Bool.eq_false_iff.mp (hd h))⟩

/-- Settles O44: SKP skips on the key's bit, SKNP on its complement, and an index above 0x0F is the fault of R241 for both. -/
theorem keySkipsFollowTheSampledKey : Obligations.KeySkipsFollowTheSampledKey :=
  ⟨fun _ s hkey => ⟨_, exec_skp hkey, skipIf_bit_spec id id s⟩,
    fun _ s hkey => ⟨_, exec_sknp hkey, skipIf_bit_spec (congrArg not) (congrArg not) s⟩,
    fun _ _ hkey => ⟨exec_of_faultOf_eq_some (if_pos hkey), exec_of_faultOf_eq_some (if_pos hkey)⟩⟩

/-! ### The timer moves (R224 to R226) -/

theorem soundOn_iff {s : State} : s.soundOn = true ↔ s.ST ≠ 0 := decide_eq_true_iff

/-- Settles O45: the first is a write of Vx alone, and the other two have their one field read back. -/
theorem timerMovesCopyTheValue : Obligations.TimerMovesCopyTheValue :=
  ⟨fun x s => ⟨_, rfl, next_setV_spec x s.DT s⟩, fun _ _ => ⟨_, rfl, rfl, rfl, fun _ => rfl⟩,
    fun _ _ => ⟨_, rfl, rfl, rfl, fun _ => rfl, soundOn_iff⟩⟩

/-! ### The two ends of LD Vx,K (R230) -/

theorem exec_ldVxK (x : Nibble) (s : State) : exec (.ldVxK x) s = .next (keyRead x s) := exec_of_faultOf_eq_none rfl

theorem sameRegsBut_keyRead (x : Nibble) (s : State) : SameRegsBut [x] s (keyRead x s) :=
  fun _ hr => readV_keyRead_ne (List.ne_of_not_mem_cons hr) s

theorem sameBytes_keyRead (x : Nibble) (s : State) : SameBytes s (keyRead x s) := fun a => by rw [keyRead_mem]

/-- Settles O46: the pressed key with no lower one is the lowest key, and with no key there is none. -/
theorem keyReadTakesLowestKeyOrWaits : Obligations.KeyReadTakesLowestKeyOrWaits := by
  refine ⟨fun x s k hlt hpressed hlower => ?key, fun x s hkeys => ?wait⟩
  case key =>
    have hk : lowestKey s.keys = some k := lowestKey_eq_some.mpr ⟨hlt, hpressed, hlower⟩
    refine ⟨_, exec_ldVxK x s, toNat_readV_keyRead x hk, sameRegsBut_keyRead x s, sameBytes_keyRead x s, ?_⟩
    rw [keyRead_of_lowest x hk]
    rfl
  case wait =>
    rw [exec_ldVxK, keyRead_of_no_key x hkeys]
    rfl

end Sys2Proof.Machine
end

section
/-! Exceptions (60_exceptions.md): the end of an instruction that raises no fault (O18), what a Step that enters FAULTED changes (O17), a word
that fails to decode (O10, O11), and a Reset with an image that does not fit (O16). -/

namespace Sys2Proof.Machine

open Sys2Proof.Claims

/-! ### Completions enter no fault (R245, R249) -/

@[simp] theorem keyRead_fault (x : Nibble) (s : State) : (keyRead x s).fault = s.fault := by unfold keyRead; split <;> rfl

theorem keyRead_fsm (x : Nibble) (s : State) : (keyRead x s).fsm = if s.keys = 0 then .waitingForKey else .running := by
  split
  case isTrue hkeys => rw [keyRead_of_no_key x hkeys, startWait_fsm]
  case isFalse hkeys =>
    obtain ⟨k, hk⟩ := exists_lowestKey hkeys
    rw [keyRead_of_lowest x hk, next_fsm, endWait_fsm]

theorem completion_fault (i : Instr) (s : State) : (completion i s).fault = s.fault := by
  cases i
  case ldVxK x => exact keyRead_fault x s
  all_goals rfl

/-- Only LD Vx,K moves the control state, between RUNNING and WAITING_FOR_KEY. -/
theorem completion_fsm_ne_faulted (i : Instr) {s : State} (hs : s.fsm ≠ .faulted) : (completion i s).fsm ≠ .faulted := by
  cases i
  case ldVxK x =>
    rw [completion, keyRead_fsm]
    split <;> decide
  all_goals exact hs

/-- Settles O18: the two ends of the execute stage, by the fault condition. -/
theorem instructionFaultsByTheTable : Obligations.InstructionFaultsByTheTable :=
  ⟨fun _ _ _ _ hfault => exec_of_faultOf_eq_some hfault, fun i s hnone =>
    ⟨_, exec_of_faultOf_eq_none hnone, completion_fault i s, completion_fsm_ne_faulted i⟩⟩

/-! ### The Step that raises a fault (R245) -/

section
variable {s t : State} {k : Word} {r : Byte} {stop : Bool} {rest : List Event}

theorem takeDecodeFailure_fsm_ne_faulted (w : Word) (s : State) : (takeDecodeFailure w s).fsm ≠ .faulted := by
  rw [takeDecodeFailure_fsm]
  split <;> decide

theorem fetchExecute_raises (h : fetchExecute s = .next t) (hs : s.fsm ≠ .faulted) (ht : t.fsm = .faulted) :
    ∃ c a w, t = endStep (raiseFault c a w s) := by
  obtain ⟨a, -, rfl⟩ | ⟨w, -, -, rfl⟩ | ⟨w, i, u, -, -, hexec, rfl⟩ := fetchExecute_cases h
  · exact ⟨_, _, _, rfl⟩
  · exact absurd ht (takeDecodeFailure_fsm_ne_faulted w s)
  · obtain ⟨c, a, -, rfl⟩ | ⟨-, rfl⟩ := exec_cases hexec
    · exact ⟨_, _, _, rfl⟩
    · exact absurd ht (completion_fsm_ne_faulted i hs)

theorem cycle_raises (h : cycle k r stop s = .next t) (hs : s.fsm ≠ .faulted) (ht : t.fsm = .faulted) :
    ∃ c a w, t = endStep (raiseFault c a w (sampleInputs k r (clearStrobes s))) := by
  obtain ⟨-, rfl⟩ | ⟨-, -, rfl⟩ | ⟨-, -, hrun⟩ := cycle_cases h
  · exact absurd ht hs
  · cases ht
  · exact fetchExecute_raises hrun hs ht

/-- A Step that enters FAULTED changes the control state and the record, its samples and strobes, and the host's events only. -/
theorem step_raises (hstep : StepComes s) (h : step s = .next t) (hs : s.fsm ≠ .faulted) (ht : t.fsm = .faulted) :
    ∃ c a w, t = { Faulted c a w s with
      keys := t.keys, rndS := t.rndS, frame := t.frame, decodeFail := t.decodeFail, pending := t.pending, draws := t.draws } := by
  obtain hp | ⟨k, r, stop, rest, hp⟩ := hstep
  · rw [step_pending_nil hp] at h
    obtain ⟨c, a, w, rfl⟩ := cycle_raises h hs ht
    exact ⟨c, a, w, rfl⟩
  · rw [step_pending_cons hp] at h
    obtain ⟨c, a, w, rfl⟩ := cycle_raises h hs ht
    exact ⟨c, a, w, rfl⟩

/-! ### The Step on a word that fails to decode (R107) -/

theorem step_decodeFailure {w : Word} (hp : s.pending = .step k r false :: rest) (hlive : Live s) (hpc : s.pc.toNat ≤ 0xFFE)
    (hd : decode (WordAtPc s) = .failure w) : step s = .next (endStep (takeDecodeFailure w (Sampled k r rest s))) := by
  have hf : fetch (Sampled k r rest s) = .word (WordAtPc s) := fetch_of_pc_le (s := Sampled k r rest s) hpc
  rw [step_runs hp hlive]
  simp only [fetchExecute, hf, hd]

end

/-- Settles O17: none of the fields named is among those such a Step changes, and the record holds the pc and sp of the step. -/
theorem faultingStepIsPrecise : Obligations.FaultingStepIsPrecise := by
  intro s t h hstep hs ht
  obtain ⟨c, a, w, heq⟩ := step_raises hstep h hs ht
  rw [heq]
  exact ⟨rfl, rfl, rfl, rfl, rfl, rfl, rfl, rfl, rfl, rfl, rfl, rfl, rfl⟩

/-- Settles O10: HALTED is not live, so the end of the step asserts no `frame`. -/
theorem decodeFailureHaltsUnderHalt : Obligations.DecodeFailureHaltsUnderHalt := by
  intro s k r rest w hp hlive hpc hd hpolicy
  refine ⟨decode_failure_word hd, ?_⟩
  rw [step_decodeFailure hp hlive hpc hd, takeDecodeFailure_halt (s := Sampled k r rest s) hpolicy]
  rfl

/-- Settles O11: the step starts and ends in RUNNING. -/
theorem decodeFailureSkipsUnderSkip : Obligations.DecodeFailureSkipsUnderSkip := by
  intro s k r rest w hp hrun hpc hd hpolicy
  refine ⟨decode_failure_word hd, ?_⟩
  rw [step_decodeFailure hp (.inl hrun) hpc hd, takeDecodeFailure_skip (s := Sampled k r rest s) hpolicy]
  simp only [endStep, Sampled, hrun, Fsm.live]

/-! ### Reset with an image that does not fit (R254, R272) -/

theorem takeReset_tooLarge {image : List Byte} {s : State} (h : Config.maxImage < image.length) :
    takeReset image s = { raiseFault .imageTooLarge 0x1000 0 State.reset with
      params := s.params, mem := fontMemory s.params.fontTable, pending := s.pending, draws := s.draws } := by
  rw [takeReset, bootState_tooLarge h]
  rfl

/-- Settles O16: raising the fault leaves the reset values, and memory holds the font alone. -/
theorem imageTooLargeFaultsAtReset : Obligations.ImageTooLargeFaultsAtReset := by
  intro s image rest hp hlen
  have hstep : step s = .next (takeReset image (setPending rest s)) := step_pending_cons hp
  rw [takeReset_tooLarge hlen] at hstep
  exact ⟨_, hstep, rfl, rfl, fun _ => readByte_fontMemory_lt _, fun _ => readByte_fontMemory_ge _, readV_reset, rfl, rfl,
    fun _ => Vector.getElem_replicate _, rfl, rfl, rfl, pixel_clear, rfl, rfl, rfl, rfl⟩

end Sys2Proof.Machine
end
